-- ==== Sys2Proof/Word.lean ====
section
/-! DEFINITION. The widths of the machine's data (`spec/00_scope.md` R5, R9, R10; `spec/30_encoding.md` R91).
Register contents, addresses being computed and opcode fields are bit vectors; a register index is a `Fin 16`. -/

namespace Sys2Proof

/-- An 8-bit value: a general register, a timer, a byte of memory, the immediate `kk`. -/
abbrev Byte := BitVec 8

/-- A 16-bit value: an opcode, `I`, `pc`, a stack slot. -/
abbrev Word := BitVec 16

/-- The 12-bit immediate address `nnn`. -/
abbrev Addr := BitVec 12

/-- A 4-bit opcode field: the group `g`, the count `n`. -/
abbrev Nibble := BitVec 4

/-- A general register index, 0 to 15 (R20: all sixteen values are legal in every `x` and `y` field). -/
abbrev RegIdx := Fin 16

end Sys2Proof
end

