-- ==== Sys2Proof/Syntax.lean ====
section
/-! DEFINITION. The instructions: one constructor per row of `spec/opcode_table.json`, in the table's order
(`spec/30_encoding.md` R94). An operand's type is its field's width (R91), so every value the encoding admits is a term
and no other value is one. -/

namespace Sys2Proof

/-- The 34 instructions. -/
inductive Instr where
  /-- CLS, 00E0 -/
  | cls
  /-- RET, 00EE -/
  | ret
  /-- JP, 1nnn -/
  | jp (nnn : Addr)
  /-- CALL, 2nnn -/
  | call (nnn : Addr)
  /-- SE_IMM, 3xkk -/
  | seImm (x : RegIdx) (kk : Byte)
  /-- SNE_IMM, 4xkk -/
  | sneImm (x : RegIdx) (kk : Byte)
  /-- SE_REG, 5xy0 -/
  | seReg (x y : RegIdx)
  /-- LD_IMM, 6xkk -/
  | ldImm (x : RegIdx) (kk : Byte)
  /-- ADD_IMM, 7xkk -/
  | addImm (x : RegIdx) (kk : Byte)
  /-- LD_REG, 8xy0 -/
  | ldReg (x y : RegIdx)
  /-- OR, 8xy1 -/
  | orReg (x y : RegIdx)
  /-- AND, 8xy2 -/
  | andReg (x y : RegIdx)
  /-- XOR, 8xy3 -/
  | xorReg (x y : RegIdx)
  /-- ADD_REG, 8xy4 -/
  | addReg (x y : RegIdx)
  /-- SUB, 8xy5 -/
  | sub (x y : RegIdx)
  /-- SHR, 8xy6; `y` is encoded and ignored (R92) -/
  | shr (x y : RegIdx)
  /-- SUBN, 8xy7 -/
  | subn (x y : RegIdx)
  /-- SHL, 8xyE; `y` is encoded and ignored (R92) -/
  | shl (x y : RegIdx)
  /-- SNE_REG, 9xy0 -/
  | sneReg (x y : RegIdx)
  /-- LD_I, Annn -/
  | ldI (nnn : Addr)
  /-- JP_V0, Bnnn -/
  | jpV0 (nnn : Addr)
  /-- RND, Cxkk -/
  | rnd (x : RegIdx) (kk : Byte)
  /-- DRW, Dxyn -/
  | drw (x y : RegIdx) (n : Nibble)
  /-- SKP, Ex9E -/
  | skp (x : RegIdx)
  /-- SKNP, ExA1 -/
  | sknp (x : RegIdx)
  /-- LD_VX_DT, Fx07 -/
  | ldVxDt (x : RegIdx)
  /-- LD_VX_K, Fx0A -/
  | ldVxK (x : RegIdx)
  /-- LD_DT_VX, Fx15 -/
  | ldDtVx (x : RegIdx)
  /-- LD_ST_VX, Fx18 -/
  | ldStVx (x : RegIdx)
  /-- ADD_I, Fx1E -/
  | addI (x : RegIdx)
  /-- LD_F, Fx29 -/
  | ldF (x : RegIdx)
  /-- LD_B, Fx33 -/
  | ldB (x : RegIdx)
  /-- LD_MEM_VX, Fx55 -/
  | ldMemVx (x : RegIdx)
  /-- LD_VX_MEM, Fx65 -/
  | ldVxMem (x : RegIdx)
deriving DecidableEq, Repr

end Sys2Proof
end

