-- ==== Sys2Proof/WellFormed.lean ====
section
/-! DEFINITION. Well-formedness: the operand ranges that an assembler must enforce because the encoding cannot hold
more (`spec/30_encoding.md` R101), over operands read as plain numbers in the six formats of R92. A term of `Instr` is
well formed by its types; `Instr.operands` gives its operands back as plain numbers, and `Instr.wellFormed` checks
them. -/

namespace Sys2Proof

/-- Operands as plain numbers, by format (R92), before their ranges are checked. -/
inductive RawOperands where
  /-- format Z: none -/
  | z
  /-- format A: an address -/
  | a (nnn : Nat)
  /-- format XK: a register and a byte -/
  | xk (x kk : Nat)
  /-- format XY: two registers -/
  | xy (x y : Nat)
  /-- format XYN: two registers and a count -/
  | xyn (x y n : Nat)
  /-- format XS: a register -/
  | xs (x : Nat)
deriving DecidableEq, Repr

/-- R101: `addr` is 0 to 0xFFF. -/
def addrInRange (nnn : Nat) : Bool := nnn ≤ 0xFFF

/-- R101: `byte` is 0 to 0xFF. -/
def byteInRange (kk : Nat) : Bool := kk ≤ 0xFF

/-- R101: `nib` is 0 to 0xF. -/
def nibInRange (n : Nat) : Bool := n ≤ 0xF

/-- R101: a register is 0 to 0xF. -/
def regInRange (x : Nat) : Bool := x ≤ 0xF

/-- R101: every operand is in its range. -/
def RawOperands.wellFormed : RawOperands → Bool
  | .z => true
  | .a nnn => addrInRange nnn
  | .xk x kk => regInRange x && byteInRange kk
  | .xy x y => regInRange x && regInRange y
  | .xyn x y n => regInRange x && regInRange y && nibInRange n
  | .xs x => regInRange x

/-- The operands of an instruction, in its row's format (R92, R94). -/
def Instr.operands : Instr → RawOperands
  | .cls => .z
  | .ret => .z
  | .jp nnn => .a nnn.toNat
  | .call nnn => .a nnn.toNat
  | .seImm x kk => .xk x.val kk.toNat
  | .sneImm x kk => .xk x.val kk.toNat
  | .seReg x y => .xy x.val y.val
  | .ldImm x kk => .xk x.val kk.toNat
  | .addImm x kk => .xk x.val kk.toNat
  | .ldReg x y => .xy x.val y.val
  | .orReg x y => .xy x.val y.val
  | .andReg x y => .xy x.val y.val
  | .xorReg x y => .xy x.val y.val
  | .addReg x y => .xy x.val y.val
  | .sub x y => .xy x.val y.val
  | .shr x y => .xy x.val y.val
  | .subn x y => .xy x.val y.val
  | .shl x y => .xy x.val y.val
  | .sneReg x y => .xy x.val y.val
  | .ldI nnn => .a nnn.toNat
  | .jpV0 nnn => .a nnn.toNat
  | .rnd x kk => .xk x.val kk.toNat
  | .drw x y n => .xyn x.val y.val n.toNat
  | .skp x => .xs x.val
  | .sknp x => .xs x.val
  | .ldVxDt x => .xs x.val
  | .ldVxK x => .xs x.val
  | .ldDtVx x => .xs x.val
  | .ldStVx x => .xs x.val
  | .addI x => .xs x.val
  | .ldF x => .xs x.val
  | .ldB x => .xs x.val
  | .ldMemVx x => .xs x.val
  | .ldVxMem x => .xs x.val

/-- An instruction is well formed when its operands are in the ranges of R101. -/
def Instr.wellFormed (i : Instr) : Bool := i.operands.wellFormed

/-- R101: a target an assembler should warn about, though the encoding admits it: an odd `addr` in JP, CALL or
JP_V0 (`spec/10_state.md` R26). -/
def Instr.oddTarget : Instr → Bool
  | .jp nnn => nnn.getLsbD 0
  | .call nnn => nnn.getLsbD 0
  | .jpV0 nnn => nnn.getLsbD 0
  | .cls => false
  | .ret => false
  | .seImm _ _ => false
  | .sneImm _ _ => false
  | .seReg _ _ => false
  | .ldImm _ _ => false
  | .addImm _ _ => false
  | .ldReg _ _ => false
  | .orReg _ _ => false
  | .andReg _ _ => false
  | .xorReg _ _ => false
  | .addReg _ _ => false
  | .sub _ _ => false
  | .shr _ _ => false
  | .subn _ _ => false
  | .shl _ _ => false
  | .sneReg _ _ => false
  | .ldI _ => false
  | .rnd _ _ => false
  | .drw _ _ _ => false
  | .skp _ => false
  | .sknp _ => false
  | .ldVxDt _ => false
  | .ldVxK _ => false
  | .ldDtVx _ => false
  | .ldStVx _ => false
  | .addI _ => false
  | .ldF _ => false
  | .ldB _ => false
  | .ldMemVx _ => false
  | .ldVxMem _ => false

end Sys2Proof
end

