-- ==== Sys2Proof/Decode.lean ====
section
/-! DEFINITION. Decoding and encoding (`spec/30_encoding.md` R90 to R102). `decodeWord` is the pure function of R95 from a
16-bit opcode to an instruction or nothing; `decodeBytes` reads it from bytes, high byte first, and rejects by name;
`encodeWord` is R102; `opcodeTable` is the mask and match columns of R94. -/

namespace Sys2Proof

/-! ### Fields of an opcode (R91) -/

/-- `g = op[15:12]`, the group. -/
def fieldG (op : Word) : Nibble := op.extractLsb' 12 4

/-- `x = op[11:8]`, the first register index. -/
def fieldX (op : Word) : RegIdx := (op.extractLsb' 8 4).toFin

/-- `y = op[7:4]`, the second register index. -/
def fieldY (op : Word) : RegIdx := (op.extractLsb' 4 4).toFin

/-- `n = op[3:0]`, the count, or a sub-opcode in groups 5, 8 and 9. -/
def fieldN (op : Word) : Nibble := op.extractLsb' 0 4

/-- `kk = op[7:0]`, the byte, or a sub-opcode in groups E and F. -/
def fieldKK (op : Word) : Byte := op.extractLsb' 0 8

/-- `nnn = op[11:0]`, the address. -/
def fieldNNN (op : Word) : Addr := op.extractLsb' 0 12

/-! ### Decoding (R95, R96) -/

/-- Group 0: CLS and RET only; every other `0nnn` is unrecognised (R97). -/
def decodeGroup0 (op : Word) : Option Instr :=
  if fieldNNN op = 0x0E0#12 then some .cls
  else if fieldNNN op = 0x0EE#12 then some .ret
  else none

/-- Group 8: selected by `n`. -/
def decodeGroup8 (op : Word) : Option Instr :=
  match (fieldN op).toNat with
  | 0x0 => some (.ldReg (fieldX op) (fieldY op))
  | 0x1 => some (.orReg (fieldX op) (fieldY op))
  | 0x2 => some (.andReg (fieldX op) (fieldY op))
  | 0x3 => some (.xorReg (fieldX op) (fieldY op))
  | 0x4 => some (.addReg (fieldX op) (fieldY op))
  | 0x5 => some (.sub (fieldX op) (fieldY op))
  | 0x6 => some (.shr (fieldX op) (fieldY op))
  | 0x7 => some (.subn (fieldX op) (fieldY op))
  | 0xE => some (.shl (fieldX op) (fieldY op))
  | _ => none

/-- Group E: selected by `kk`. -/
def decodeGroupE (op : Word) : Option Instr :=
  match (fieldKK op).toNat with
  | 0x9E => some (.skp (fieldX op))
  | 0xA1 => some (.sknp (fieldX op))
  | _ => none

/-- Group F: selected by `kk`. -/
def decodeGroupF (op : Word) : Option Instr :=
  match (fieldKK op).toNat with
  | 0x07 => some (.ldVxDt (fieldX op))
  | 0x0A => some (.ldVxK (fieldX op))
  | 0x15 => some (.ldDtVx (fieldX op))
  | 0x18 => some (.ldStVx (fieldX op))
  | 0x1E => some (.addI (fieldX op))
  | 0x29 => some (.ldF (fieldX op))
  | 0x33 => some (.ldB (fieldX op))
  | 0x55 => some (.ldMemVx (fieldX op))
  | 0x65 => some (.ldVxMem (fieldX op))
  | _ => none

/-- R95: the instruction of a 16-bit opcode, or `none` where the word is unrecognised (R96). -/
def decodeWord (op : Word) : Option Instr :=
  match (fieldG op).toNat with
  | 0x0 => decodeGroup0 op
  | 0x1 => some (.jp (fieldNNN op))
  | 0x2 => some (.call (fieldNNN op))
  | 0x3 => some (.seImm (fieldX op) (fieldKK op))
  | 0x4 => some (.sneImm (fieldX op) (fieldKK op))
  | 0x5 => if fieldN op = 0#4 then some (.seReg (fieldX op) (fieldY op)) else none
  | 0x6 => some (.ldImm (fieldX op) (fieldKK op))
  | 0x7 => some (.addImm (fieldX op) (fieldKK op))
  | 0x8 => decodeGroup8 op
  | 0x9 => if fieldN op = 0#4 then some (.sneReg (fieldX op) (fieldY op)) else none
  | 0xA => some (.ldI (fieldNNN op))
  | 0xB => some (.jpV0 (fieldNNN op))
  | 0xC => some (.rnd (fieldX op) (fieldKK op))
  | 0xD => some (.drw (fieldX op) (fieldY op) (fieldN op))
  | 0xE => decodeGroupE op
  | 0xF => decodeGroupF op
  | _ => none

/-- R63, R90: the opcode of two bytes, the byte at the lower address high. -/
def wordOfBytes (hi lo : Byte) : Word := hi ++ lo

/-- What decoding a list of bytes answers: an instruction and the bytes after it, or a rejection by name. -/
inductive Decoded where
  /-- one of the 34 instructions, and the rest of the bytes -/
  | instr (i : Instr) (rest : List Byte)
  /-- the word matches no row of R94 (R96) -/
  | unrecognised (op : Word)
  /-- fewer than two bytes; the core's fetch never gives this (R63) -/
  | truncated (left : List Byte)
deriving DecidableEq, Repr

/-- R90: every instruction is two bytes, high byte first. Total on any bytes. -/
def decodeBytes : List Byte → Decoded
  | hi :: lo :: rest =>
    match decodeWord (wordOfBytes hi lo) with
    | some i => .instr i rest
    | none => .unrecognised (wordOfBytes hi lo)
  | left => .truncated left

/-! ### Encoding (R102) -/

/-- A register index as a 4-bit field. -/
def regField (x : RegIdx) : Nibble := BitVec.ofFin x

/-- Format A: `g << 12 | nnn`. -/
def encodeA (g : Nibble) (nnn : Addr) : Word :=
  g.zeroExtend 16 <<< 12 ||| nnn.zeroExtend 16

/-- Format XK: `g << 12 | x << 8 | kk`; format XS with `kk` the fixed `ss`. -/
def encodeXK (g : Nibble) (x : RegIdx) (kk : Byte) : Word :=
  g.zeroExtend 16 <<< 12 ||| (regField x).zeroExtend 16 <<< 8 ||| kk.zeroExtend 16

/-- Format XYN: `g << 12 | x << 8 | y << 4 | n`; format XY with `n` the fixed `s`. -/
def encodeXYN (g : Nibble) (x y : RegIdx) (n : Nibble) : Word :=
  g.zeroExtend 16 <<< 12 ||| (regField x).zeroExtend 16 <<< 8 ||| (regField y).zeroExtend 16 <<< 4
    ||| n.zeroExtend 16

/-- R102: the word of an instruction, with `g`, `s` and `ss` read off the pattern column of R94. -/
def encodeWord : Instr → Word
  | .cls => 0x00E0#16
  | .ret => 0x00EE#16
  | .jp nnn => encodeA 0x1#4 nnn
  | .call nnn => encodeA 0x2#4 nnn
  | .seImm x kk => encodeXK 0x3#4 x kk
  | .sneImm x kk => encodeXK 0x4#4 x kk
  | .seReg x y => encodeXYN 0x5#4 x y 0x0#4
  | .ldImm x kk => encodeXK 0x6#4 x kk
  | .addImm x kk => encodeXK 0x7#4 x kk
  | .ldReg x y => encodeXYN 0x8#4 x y 0x0#4
  | .orReg x y => encodeXYN 0x8#4 x y 0x1#4
  | .andReg x y => encodeXYN 0x8#4 x y 0x2#4
  | .xorReg x y => encodeXYN 0x8#4 x y 0x3#4
  | .addReg x y => encodeXYN 0x8#4 x y 0x4#4
  | .sub x y => encodeXYN 0x8#4 x y 0x5#4
  | .shr x y => encodeXYN 0x8#4 x y 0x6#4
  | .subn x y => encodeXYN 0x8#4 x y 0x7#4
  | .shl x y => encodeXYN 0x8#4 x y 0xE#4
  | .sneReg x y => encodeXYN 0x9#4 x y 0x0#4
  | .ldI nnn => encodeA 0xA#4 nnn
  | .jpV0 nnn => encodeA 0xB#4 nnn
  | .rnd x kk => encodeXK 0xC#4 x kk
  | .drw x y n => encodeXYN 0xD#4 x y n
  | .skp x => encodeXK 0xE#4 x 0x9E#8
  | .sknp x => encodeXK 0xE#4 x 0xA1#8
  | .ldVxDt x => encodeXK 0xF#4 x 0x07#8
  | .ldVxK x => encodeXK 0xF#4 x 0x0A#8
  | .ldDtVx x => encodeXK 0xF#4 x 0x15#8
  | .ldStVx x => encodeXK 0xF#4 x 0x18#8
  | .addI x => encodeXK 0xF#4 x 0x1E#8
  | .ldF x => encodeXK 0xF#4 x 0x29#8
  | .ldB x => encodeXK 0xF#4 x 0x33#8
  | .ldMemVx x => encodeXK 0xF#4 x 0x55#8
  | .ldVxMem x => encodeXK 0xF#4 x 0x65#8

/-- R63, R102: the high byte of a word, stored at the lower address. -/
def highByte (op : Word) : Byte := op.extractLsb' 8 8

/-- R63, R102: the low byte of a word. -/
def lowByte (op : Word) : Byte := op.extractLsb' 0 8

/-- R102: the bytes of an instruction in memory, high byte first. -/
def encodeBytes (i : Instr) : List Byte := [highByte (encodeWord i), lowByte (encodeWord i)]

/-! ### The opcode table (R94) -/

/-- A row of R94: a word is the row's instruction exactly when `op & mask = pattern`. -/
structure OpcodeRow where
  mnemonic : String
  mask : Word
  pattern : Word
deriving DecidableEq, Repr

/-- R94: does a word match a row? -/
def OpcodeRow.hits (r : OpcodeRow) (op : Word) : Bool := op &&& r.mask == r.pattern

/-- R94: the row of an instruction. -/
def rowOf : Instr → OpcodeRow
  | .cls => ⟨"CLS", 0xFFFF#16, 0x00E0#16⟩
  | .ret => ⟨"RET", 0xFFFF#16, 0x00EE#16⟩
  | .jp _ => ⟨"JP", 0xF000#16, 0x1000#16⟩
  | .call _ => ⟨"CALL", 0xF000#16, 0x2000#16⟩
  | .seImm _ _ => ⟨"SE_IMM", 0xF000#16, 0x3000#16⟩
  | .sneImm _ _ => ⟨"SNE_IMM", 0xF000#16, 0x4000#16⟩
  | .seReg _ _ => ⟨"SE_REG", 0xF00F#16, 0x5000#16⟩
  | .ldImm _ _ => ⟨"LD_IMM", 0xF000#16, 0x6000#16⟩
  | .addImm _ _ => ⟨"ADD_IMM", 0xF000#16, 0x7000#16⟩
  | .ldReg _ _ => ⟨"LD_REG", 0xF00F#16, 0x8000#16⟩
  | .orReg _ _ => ⟨"OR", 0xF00F#16, 0x8001#16⟩
  | .andReg _ _ => ⟨"AND", 0xF00F#16, 0x8002#16⟩
  | .xorReg _ _ => ⟨"XOR", 0xF00F#16, 0x8003#16⟩
  | .addReg _ _ => ⟨"ADD_REG", 0xF00F#16, 0x8004#16⟩
  | .sub _ _ => ⟨"SUB", 0xF00F#16, 0x8005#16⟩
  | .shr _ _ => ⟨"SHR", 0xF00F#16, 0x8006#16⟩
  | .subn _ _ => ⟨"SUBN", 0xF00F#16, 0x8007#16⟩
  | .shl _ _ => ⟨"SHL", 0xF00F#16, 0x800E#16⟩
  | .sneReg _ _ => ⟨"SNE_REG", 0xF00F#16, 0x9000#16⟩
  | .ldI _ => ⟨"LD_I", 0xF000#16, 0xA000#16⟩
  | .jpV0 _ => ⟨"JP_V0", 0xF000#16, 0xB000#16⟩
  | .rnd _ _ => ⟨"RND", 0xF000#16, 0xC000#16⟩
  | .drw _ _ _ => ⟨"DRW", 0xF000#16, 0xD000#16⟩
  | .skp _ => ⟨"SKP", 0xF0FF#16, 0xE09E#16⟩
  | .sknp _ => ⟨"SKNP", 0xF0FF#16, 0xE0A1#16⟩
  | .ldVxDt _ => ⟨"LD_VX_DT", 0xF0FF#16, 0xF007#16⟩
  | .ldVxK _ => ⟨"LD_VX_K", 0xF0FF#16, 0xF00A#16⟩
  | .ldDtVx _ => ⟨"LD_DT_VX", 0xF0FF#16, 0xF015#16⟩
  | .ldStVx _ => ⟨"LD_ST_VX", 0xF0FF#16, 0xF018#16⟩
  | .addI _ => ⟨"ADD_I", 0xF0FF#16, 0xF01E#16⟩
  | .ldF _ => ⟨"LD_F", 0xF0FF#16, 0xF029#16⟩
  | .ldB _ => ⟨"LD_B", 0xF0FF#16, 0xF033#16⟩
  | .ldMemVx _ => ⟨"LD_MEM_VX", 0xF0FF#16, 0xF055#16⟩
  | .ldVxMem _ => ⟨"LD_VX_MEM", 0xF0FF#16, 0xF065#16⟩

/-- The rows of R94 for groups 0 to 7. -/
def opcodeRowsLow : List OpcodeRow :=
  [rowOf .cls, rowOf .ret, rowOf (.jp 0), rowOf (.call 0), rowOf (.seImm 0 0), rowOf (.sneImm 0 0),
   rowOf (.seReg 0 0), rowOf (.ldImm 0 0), rowOf (.addImm 0 0)]

/-- The rows of R94 for groups 8 and 9. -/
def opcodeRowsMiddle : List OpcodeRow :=
  [rowOf (.ldReg 0 0), rowOf (.orReg 0 0), rowOf (.andReg 0 0), rowOf (.xorReg 0 0), rowOf (.addReg 0 0),
   rowOf (.sub 0 0), rowOf (.shr 0 0), rowOf (.subn 0 0), rowOf (.shl 0 0), rowOf (.sneReg 0 0)]

/-- The rows of R94 for groups A to F. -/
def opcodeRowsHigh : List OpcodeRow :=
  [rowOf (.ldI 0), rowOf (.jpV0 0), rowOf (.rnd 0 0), rowOf (.drw 0 0 0), rowOf (.skp 0), rowOf (.sknp 0),
   rowOf (.ldVxDt 0), rowOf (.ldVxK 0), rowOf (.ldDtVx 0), rowOf (.ldStVx 0), rowOf (.addI 0), rowOf (.ldF 0),
   rowOf (.ldB 0), rowOf (.ldMemVx 0), rowOf (.ldVxMem 0)]

/-- R94: the 34 rows, in the table's order. -/
def opcodeTable : List OpcodeRow := opcodeRowsLow ++ opcodeRowsMiddle ++ opcodeRowsHigh

/-! ### The host's view of the decoder -/

/-- The instruction read from a table word of `nbits` bits: the word (bits from `nbits` up are 0) laid out in memory
order, high byte first, and given to `decodeBytes`. -/
def decodeTableWord (nbits w : Nat) : Option Instr :=
  let op : Word := BitVec.ofNat 16 (w % 2 ^ nbits)
  match decodeBytes [highByte op, lowByte op] with
  | .instr i _ => some i
  | .unrecognised _ => none
  | .truncated _ => none

end Sys2Proof
end

