-- ==== Sys2Proof/Config.lean ====
section
/-! DEFINITION. The parameters of `spec/00_scope.md` R5 that the source fixes, the shape of the configuration record
of R6 for those that are the spec's own choice (their values are in `Machine/Params.lean`), and the free random byte. -/

namespace Sys2Proof

/-- MEM_SIZE: bytes of memory. -/
def Config.memSize : Nat := 4096

/-- PROGRAM_ORIGIN: where loading starts and where pc starts. -/
def Config.programOrigin : Nat := 0x200

/-- GLYPH_HEIGHT: bytes per font glyph. -/
def Config.glyphHeight : Nat := 5

/-- NUM_GLYPHS: glyphs of the font. -/
def Config.numGlyphs : Nat := 16

/-- The bytes of the font: 80. -/
def Config.fontSize : Nat := Config.numGlyphs * Config.glyphHeight

/-- FLAG_REG: the register that doubles as the flag, VF. -/
def Config.flagReg : RegIdx := 15

/-- The random byte of the k-th draw (`spec/40_cycle_and_host.md` R131), an input under no law: the value of RANDOM_SOURCE
in `Machine/Params.lean`. It has no body, so that a claim about it holds for every sequence of bytes (log 2). -/
opaque Config.rnd : Nat → Byte

/-- The two treatments of an address of 4096 or more that `spec/93_implementation_defined.md` U1 names. -/
inductive AddrReduction where
  /-- keep the low 12 bits -/
  | modulo
  /-- stop at the last byte of memory -/
  | clamp
deriving DecidableEq, Repr

/-- The two readings of SUBN's flag that `spec/90_conflicts.md` C3 names. -/
inductive SubnFlagSense where
  /-- VF = 1 exactly when Vx < Vy (the printed predicate) -/
  | vxBelowVy
  /-- VF = 1 exactly when Vy < Vx (the printed label "borrow") -/
  | borrow
deriving DecidableEq, Repr

/-- The configuration record of R6: the choices that are the spec's own and that another build may make otherwise. The
last two fields are R6's constraint: no record has a font that does not fit below PROGRAM_ORIGIN. -/
structure Config where
  /-- FONT_BASE (D7) -/
  fontBase : Nat
  /-- FONT_TABLE (D8) -/
  fontTable : List Byte
  /-- ADDR_MASK behaviour (D5) -/
  addrReduction : AddrReduction
  /-- the flag sense of SUBN (D12) -/
  subnFlag : SubnFlagSense
  /-- RANDOM_SOURCE (D14): the random byte of the k-th draw -/
  randomSource : Nat → Byte
  /-- the font is its 80 bytes -/
  fontTable_length : fontTable.length = Config.fontSize
  /-- R6: `FONT_BASE + 80 <= PROGRAM_ORIGIN` -/
  fontBase_fits : fontBase + Config.fontSize ≤ Config.programOrigin

end Sys2Proof
end

