-- ==== Sys2Proof/Machine/Params.lean ====
section
/-! DEFINITION. The value of the configuration record (`spec/00_scope.md` R5, R6): the choices that are the spec's own,
named so that a claim can say which it rests on. Logs 2 and 4 to 7. -/

namespace Sys2Proof.Machine

/-- The glyphs of the digits 0 to 7 (`spec/20_memory.md` R67). -/
def fontLow : List (List Byte) :=
  [[0xF0, 0x90, 0x90, 0x90, 0xF0],
   [0x20, 0x60, 0x20, 0x20, 0x70],
   [0xF0, 0x10, 0xF0, 0x80, 0xF0],
   [0xF0, 0x10, 0xF0, 0x10, 0xF0],
   [0x90, 0x90, 0xF0, 0x10, 0x10],
   [0xF0, 0x80, 0xF0, 0x10, 0xF0],
   [0xF0, 0x80, 0xF0, 0x90, 0xF0],
   [0xF0, 0x10, 0x20, 0x40, 0x40]]

/-- The glyphs of the digits 8 to F (`spec/20_memory.md` R67). -/
def fontHigh : List (List Byte) :=
  [[0xF0, 0x90, 0xF0, 0x90, 0xF0],
   [0xF0, 0x90, 0xF0, 0x10, 0xF0],
   [0xF0, 0x90, 0xF0, 0x90, 0x90],
   [0xE0, 0x90, 0xE0, 0x90, 0xE0],
   [0xF0, 0x80, 0x80, 0x80, 0xF0],
   [0xE0, 0x90, 0x90, 0x90, 0xE0],
   [0xF0, 0x80, 0xF0, 0x80, 0xF0],
   [0xF0, 0x80, 0xF0, 0x80, 0x80]]

/-- The configuration the spec chooses: FONT_BASE 0x000 (D7), the usual font (D8), addresses modulo 4096 (D5),
SUBN's flag 1 exactly when Vx < Vy (D12), and the free random bytes (D14). -/
def config : Config where
  fontBase := 0x000
  fontTable := fontLow.flatten ++ fontHigh.flatten
  addrReduction := .modulo
  subnFlag := .vxBelowVy
  randomSource := Config.rnd
  fontTable_length := by decide
  fontBase_fits := by decide

end Sys2Proof.Machine
end

