-- ==== Sys2Proof/Machine/State.lean ====
section
/-! DEFINITION. The state of the machine (`spec/10_state.md` R20 to R41), its value after reset (R40), and one update per
field. Every field is the spec's but `draws`, the model's own (log 2). -/

namespace Sys2Proof.Machine

/-- Memory as the cells that differ from the reset contents (`resetByte`), addresses strictly rising (log 3). -/
abbrev Memory := List Host.Cell

/-- The display buffer `fb`: 32 rows of 64 columns, one bit per pixel (R30). -/
abbrev Display := Vector (Vector Bool 64) 32

/-- The three fatal conditions, a closed list (`spec/60_exceptions.md` R240). -/
inductive FatalCode where
  /-- code 1, raised by decode -/
  | unknownOpcode
  /-- code 2, raised by CALL with a full stack -/
  | stackOverflow
  /-- code 3, raised by RET with an empty stack -/
  | stackUnderflow
deriving DecidableEq, Repr

/-- The halt record (R36): the code, the word that was fetched, the pc it was fetched at. -/
structure HaltRecord where
  code : FatalCode
  opcode : Word
  addr : Word
deriving DecidableEq, Repr

/-- The three cycle states (R41), a function of `halt` and `wait`. -/
inductive CycleState where
  /-- normal fetch, decode, execute -/
  | running
  /-- stalled until a key is down, which goes to register `r` -/
  | awaitingKey (r : RegIdx)
  /-- stopped for good by a fatal condition -/
  | halted
deriving DecidableEq, Repr

/-- The reasons for which a cycle counts as a fault (`spec/60_exceptions.md` R257). `step` itself never answers a fault:
the spec gives the fatal cycle its effect, a next state whose `halt` is set (log 1). `Safety.judgedStep` answers it. -/
inductive Fault where
  /-- raised by `Safety.judgedStep` for a cycle that ends with this halt record; safe: it calls a fault what `step`
  answers as a next state -/
  | fatal (record : HaltRecord)
deriving DecidableEq, Repr

/-- The reasons for which the model gives no meaning. No rule of the spec is a refusal (R257). -/
inductive Refusal where
  /-- raised by an arm of `exec` for an instruction that has no meaning yet; safe; no arm does -/
  | notModelled (mnemonic : String)
deriving DecidableEq, Repr

/-- The state block. -/
structure State where
  /-- V0 to VF (R20) -/
  regs : Vector Byte 16
  /-- the index register I (R24) -/
  i : Word
  /-- the program counter (R25) -/
  pc : Word
  /-- the stack pointer: the number of occupied slots, 0 to 16 (R27) -/
  sp : Fin 17
  /-- the return-address slots (R27) -/
  stack : Vector Word 16
  /-- the 4096 bytes of memory (R29) -/
  mem : Memory
  /-- the display buffer (R30) -/
  fb : Display
  /-- the delay timer DT (R31) -/
  dt : Byte
  /-- the sound timer ST (R32) -/
  st : Byte
  /-- the key latch, bit k for key k (R33) -/
  keys : BitVec 16
  /-- the await-key flag (R34) -/
  wait : Option RegIdx
  /-- the display-dirty flag (R35) -/
  dirty : Bool
  /-- the halt record (R36) -/
  halt : Option HaltRecord
  /-- the model's own: how many random bytes have been consumed (R39, R131; log 2) -/
  draws : Nat
deriving DecidableEq, Repr

/-- The state after reset (R40). Memory lists nothing: every byte reads as `resetByte`. -/
def State.reset : State where
  regs := Vector.replicate 16 0x00#8
  i := 0x0000#16
  pc := BitVec.ofNat 16 Config.programOrigin
  sp := 0
  stack := Vector.replicate 16 0x0000#16
  mem := []
  fb := Vector.replicate 32 (Vector.replicate 64 false)
  dt := 0x00#8
  st := 0x00#8
  keys := 0x0000#16
  wait := none
  dirty := false
  halt := none
  draws := 0

/-- `s` with the register file `v`. -/
def State.setRegs (s : State) (v : Vector Byte 16) : State := { s with regs := v }
/-- `s` with the index register `v`. -/
def State.setI (s : State) (v : Word) : State := { s with i := v }
/-- `s` with the program counter `v`. -/
def State.setPc (s : State) (v : Word) : State := { s with pc := v }
/-- `s` with the stack pointer `v`. -/
def State.setSp (s : State) (v : Fin 17) : State := { s with sp := v }
/-- `s` with the stack slots `v`. -/
def State.setStack (s : State) (v : Vector Word 16) : State := { s with stack := v }
/-- `s` with the memory `v`. -/
def State.setMem (s : State) (v : Memory) : State := { s with mem := v }
/-- `s` with the display buffer `v`. -/
def State.setFb (s : State) (v : Display) : State := { s with fb := v }
/-- `s` with the delay timer `v`. -/
def State.setDt (s : State) (v : Byte) : State := { s with dt := v }
/-- `s` with the sound timer `v`. -/
def State.setSt (s : State) (v : Byte) : State := { s with st := v }
/-- `s` with the key latch `v`. -/
def State.setKeys (s : State) (v : BitVec 16) : State := { s with keys := v }
/-- `s` with the await-key flag `v`. -/
def State.setWait (s : State) (v : Option RegIdx) : State := { s with wait := v }
/-- `s` with the display-dirty flag `v`. -/
def State.setDirty (s : State) (v : Bool) : State := { s with dirty := v }
/-- `s` with the halt record `v`. -/
def State.setHalt (s : State) (v : Option HaltRecord) : State := { s with halt := v }
/-- `s` with the count of random bytes `v`. -/
def State.setDraws (s : State) (v : Nat) : State := { s with draws := v }

end Sys2Proof.Machine
end

