-- ==== Sys2Proof/Machine/Memory.lean ====
section
/-! DEFINITION. Memory (`spec/20_memory.md` R60 to R70): what an unlisted address reads as, the reduction of an address,
the one-byte read and write, and the canonical form of the list of cells. -/

namespace Sys2Proof.Machine

/-- The byte at `a` after reset: the font bytes at FONT_BASE, 0x00 elsewhere (`spec/10_state.md` R29, R67). -/
def resetByte (a : Nat) : Byte :=
  if config.fontBase ≤ a then config.fontTable.getD (a - config.fontBase) 0x00#8 else 0x00#8

/-- R62: the index into memory of an address a rule computes (ADDR_MASK, D5; log 4). -/
def effAddr (a : Nat) : Nat :=
  match config.addrReduction with
  | .modulo => a % Config.memSize
  | .clamp => min a (Config.memSize - 1)

/-- The byte at index `a`. -/
def Memory.read (m : Memory) (a : Nat) : Byte :=
  match m with
  | [] => resetByte a
  | (b, v) :: rest => if b = a then v else Memory.read rest a

/-- The cells of `m` less those at `a`. -/
def Memory.erase (m : Memory) (a : Nat) : Memory := m.filter (fun c => c.1 != a)

/-- The cell `(a, v)` put in before the first cell of a higher address. -/
def Memory.insert (m : Memory) (a : Nat) (v : Byte) : Memory :=
  match m with
  | [] => [(a, v)]
  | c :: rest => if a < c.1 then (a, v) :: c :: rest else c :: Memory.insert rest a v

/-- The byte at index `a` set to `v`: a byte equal to the reset contents is not listed. -/
def Memory.write (m : Memory) (a : Nat) (v : Byte) : Memory :=
  if v = resetByte a then Memory.erase m a else Memory.insert (Memory.erase m a) a v

/-- The canonical form: addresses strictly rising and below 4096, and no cell equal to what its address reads as
unlisted. -/
def Memory.wf (m : Memory) : Bool :=
  decide (m.Pairwise (fun c d => c.1 < d.1)) && m.all (fun c => decide (c.1 < Config.memSize) && c.2 != resetByte c.1)

/-- `MemRead(a, 1)` (R62). -/
def memRead (m : Memory) (a : Nat) : Byte := Memory.read m (effAddr a)

/-- `MemWrite(a, 1, v)` (R62). -/
def memWrite (m : Memory) (a : Nat) (v : Byte) : Memory := Memory.write m (effAddr a) v

end Sys2Proof.Machine
end

