-- ==== Sys2Proof/Machine/Ops.lean ====
section
/-! DEFINITION. The named operations over registers, memory, pc and the stack (`spec/00_scope.md` R9), and the taking of a
fatal condition (`spec/60_exceptions.md` R244), once for the three of them. There is no return from one (R247): the only
exit is the host's reset (`HostOps.lean`, `hostReset`). -/

namespace Sys2Proof.Machine

/-! ### Registers -/

/-- `V[r]`. -/
def readReg (s : State) (r : RegIdx) : Byte := s.regs[r]

/-- `V[r] <- v`. -/
def writeReg (s : State) (r : RegIdx) (v : Byte) : State := s.setRegs (s.regs.set r v)

/-- VF set to 0x01 or 0x00 (`spec/10_state.md` R22). -/
def writeFlag (s : State) (b : Bool) : State := writeReg s Config.flagReg (if b then 0x01#8 else 0x00#8)

/-- A result to `V[x]`, then a flag to VF: with `x = 15` the flag is what stays (`spec/42_alu.md` R193). -/
def writeResultFlag (s : State) (x : RegIdx) (v : Byte) (b : Bool) : State := writeFlag (writeReg s x v) b

/-! ### Program counter -/

/-- `next`: one instruction width. -/
def next (s : State) : State := s.setPc (s.pc + 2#16)

/-- `skip`: two instruction widths. -/
def skip (s : State) : State := s.setPc (s.pc + 4#16)

/-- `if c: skip else: next` (`spec/41_control_flow.md` R160). -/
def skipIf (c : Bool) (s : State) : State := if c then skip s else next s

/-! ### Memory -/

/-- `MemRead(a, 1)` of the state's memory. -/
def readByte (s : State) (a : Nat) : Byte := memRead s.mem a

/-- `MemWrite(a, 1, v)` to the state's memory. -/
def writeByte (s : State) (a : Nat) (v : Byte) : State := s.setMem (memWrite s.mem a v)

/-- `MemRead(pc, 2)`: the opcode at pc, high byte first (`spec/20_memory.md` R63). -/
def fetchWord (s : State) : Word := wordOfBytes (readByte s s.pc.toNat) (readByte s (s.pc.toNat + 1))

/-- The bytes `bs` written at ascending addresses from `a`, each address reduced by itself (R62). -/
def storeBytes (m : Memory) (a : Nat) (bs : List Byte) : Memory :=
  match bs with
  | [] => m
  | b :: rest => storeBytes (memWrite m a b) (a + 1) rest

/-- `v` with its first `k` registers loaded from ascending addresses from `a` (R226). -/
def loadRegs (m : Memory) (a : Nat) (v : Vector Byte 16) (k : Nat) : Vector Byte 16 :=
  match k with
  | 0 => v
  | j + 1 => (loadRegs m a v j).setIfInBounds j (memRead m (a + j))

/-! ### Stack (`spec/10_state.md` R27) -/

/-- Push pc: `stack[sp] <- pc; sp <- sp + 1`, or nothing where all 16 slots are occupied. -/
def pushPc (s : State) : Option State :=
  if h : s.sp.val < 16 then
    some ((s.setStack (s.stack.set s.sp.val s.pc h)).setSp ⟨s.sp.val + 1, Nat.succ_lt_succ h⟩)
  else none

/-- Pop: `sp <- sp - 1`, and the popped value `stack[sp]`, or nothing where no slot is occupied. The slot keeps its
contents. -/
def popAddr (s : State) : Option (Word × State) :=
  match s.sp with
  | ⟨0, _⟩ => none
  | ⟨j + 1, h⟩ => some (s.stack[j]'(Nat.lt_of_succ_lt_succ h), s.setSp ⟨j, Nat.lt_of_succ_lt h⟩)

/-! ### Fatal conditions -/

/-- R240: the numbers of the fatal conditions. -/
def fatalNumber : FatalCode → Nat
  | .unknownOpcode => 1
  | .stackOverflow => 2
  | .stackUnderflow => 3

/-- `raise Fatal(code)` (R244): `halt <- Some(code, op, pc)` and no other change. -/
def raiseFatal (code : FatalCode) (op : Word) (s : State) : State := s.setHalt (some ⟨code, op, s.pc⟩)

end Sys2Proof.Machine
end

