-- ==== Sys2Proof/Machine/Operands.lean ====
section
/-! DEFINITION. The operand forms: zero-extended immediates (`spec/30_encoding.md` R93), the one data addressing mode
(`spec/45_index_memory.md` R220), the font address, the key index, the BCD digits and the random byte. -/

namespace Sys2Proof.Machine

/-- `zext_16(nnn)`: an address as `I` or `pc` holds it. -/
def zextAddr (nnn : Addr) : Word := nnn.zeroExtend 16

/-- `zext_16(v)`: a byte widened to 16 bits. -/
def zextByte (v : Byte) : Word := v.zeroExtend 16

/-- R220: base I plus a constant offset, before the reduction that every access applies. -/
def indexAddr (s : State) (offset : Nat) : Nat := s.i.toNat + offset

/-- R223: `FONT_BASE + Vx * 5`; the register value is not masked. -/
def glyphAddr (v : Byte) : Word :=
  BitVec.ofNat 16 config.fontBase + zextByte v * BitVec.ofNat 16 Config.glyphHeight

/-- R210: the low four bits of the register select the key (D13; log 8). -/
def keyIndex (v : Byte) : Nat := (v.extractLsb' 0 4).toNat

/-- `keys[k]`. -/
def keyDown (s : State) (k : Nat) : Bool := s.keys.getLsbD k

/-- R224: the hundreds, tens and ones digits of a byte. -/
def bcdDigits (v : Byte) : List Byte :=
  [BitVec.ofNat 8 (v.toNat / 100), BitVec.ofNat 8 (v.toNat / 10 % 10), BitVec.ofNat 8 (v.toNat % 10)]

/-- R225: the registers V0 to Vx, lowest first. -/
def regRange (s : State) (x : RegIdx) : List Byte := s.regs.toList.take (x.val + 1)

/-- R227: the index register past the last byte moved, modulo 65536. -/
def indexAdvanced (s : State) (x : RegIdx) : Word := s.i + BitVec.ofNat 16 (x.val + 1)

/-- R131: the random byte of the next draw. -/
def randomByte (s : State) : Byte := config.randomSource s.draws

/-- R131: the draw consumed. -/
def consumeDraw (s : State) : State := s.setDraws (s.draws + 1)

/-- R192: the random byte under the mask `kk`. -/
def maskRandom (byte kk : Byte) : Byte := byte &&& kk

end Sys2Proof.Machine
end

