-- ==== Sys2Proof/Machine/Flags.lean ====
section
/-! DEFINITION. The results and the flags of the arithmetic instructions (`spec/42_alu.md` R180 to R191;
`spec/10_state.md` R22). The collision flag of DRW is computed by the blit (`Display.lean`). -/

namespace Sys2Proof.Machine

/-- R187: `zext_9(Vx) + zext_9(Vy)`, 0 to 510. -/
def addWide (a b : Byte) : BitVec 9 := a.zeroExtend 9 + b.zeroExtend 9

/-- R187: the low 8 bits of the sum. -/
def addResult (a b : Byte) : Byte := (addWide a b).extractLsb' 0 8

/-- R187: carry, 1 if the sum exceeds 255. -/
def addCarry (a b : Byte) : Bool := decide (255 < (addWide a b).toNat)

/-- R188: `(Vx - Vy) mod 256`. -/
def subResult (a b : Byte) : Byte := a - b

/-- R188: borrow, 1 if Vx < Vy. -/
def subBorrow (a b : Byte) : Bool := decide (a.toNat < b.toNat)

/-- R189: `(Vy - Vx) mod 256`. -/
def subnResult (a b : Byte) : Byte := b - a

/-- R189: SUBN's flag, in the sense the configuration names (C3, D12; log 7). -/
def subnFlag (a b : Byte) : Bool :=
  match config.subnFlag with
  | .vxBelowVy => decide (a.toNat < b.toNat)
  | .borrow => decide (b.toNat < a.toNat)

/-- R190: shift right by one, bit 7 becomes 0. -/
def shrResult (a : Byte) : Byte := a >>> 1

/-- R190: the old bit 0. -/
def shrFlag (a : Byte) : Bool := a.getLsbD 0

/-- R191: shift left by one, bit 0 becomes 0. -/
def shlResult (a : Byte) : Byte := a <<< 1

/-- R191: the old bit 7. -/
def shlFlag (a : Byte) : Bool := a.getLsbD 7

end Sys2Proof.Machine
end

