-- ==== Sys2Proof/Machine/Alu.lean ====
section
/-! DEFINITION. The register, arithmetic, logic, shift and random instructions (`spec/42_alu.md` R180 to R193). -/

namespace Sys2Proof.Machine

/-- LD_IMM (R181). -/
def execLdImm (x : RegIdx) (kk : Byte) (s : State) : Host.Outcome State Fault Refusal :=
  .next (next (writeReg s x kk))

/-- ADD_IMM (R182): no flag. -/
def execAddImm (x : RegIdx) (kk : Byte) (s : State) : Host.Outcome State Fault Refusal :=
  .next (next (writeReg s x (readReg s x + kk)))

/-- LD_REG (R183). -/
def execLdReg (x y : RegIdx) (s : State) : Host.Outcome State Fault Refusal :=
  .next (next (writeReg s x (readReg s y)))

/-- OR (R184): VF is left alone. -/
def execOr (x y : RegIdx) (s : State) : Host.Outcome State Fault Refusal :=
  .next (next (writeReg s x (readReg s x ||| readReg s y)))

/-- AND (R185): VF is left alone. -/
def execAnd (x y : RegIdx) (s : State) : Host.Outcome State Fault Refusal :=
  .next (next (writeReg s x (readReg s x &&& readReg s y)))

/-- XOR (R186): VF is left alone. -/
def execXor (x y : RegIdx) (s : State) : Host.Outcome State Fault Refusal :=
  .next (next (writeReg s x (readReg s x ^^^ readReg s y)))

/-- ADD_REG (R187). -/
def execAddReg (x y : RegIdx) (s : State) : Host.Outcome State Fault Refusal :=
  .next (next (writeResultFlag s x (addResult (readReg s x) (readReg s y)) (addCarry (readReg s x) (readReg s y))))

/-- SUB (R188). -/
def execSub (x y : RegIdx) (s : State) : Host.Outcome State Fault Refusal :=
  .next (next (writeResultFlag s x (subResult (readReg s x) (readReg s y)) (subBorrow (readReg s x) (readReg s y))))

/-- SUBN (R189). -/
def execSubn (x y : RegIdx) (s : State) : Host.Outcome State Fault Refusal :=
  .next (next (writeResultFlag s x (subnResult (readReg s x) (readReg s y)) (subnFlag (readReg s x) (readReg s y))))

/-- SHR (R190): Vx in place, Vy ignored (D10; log 9). -/
def execShr (x _y : RegIdx) (s : State) : Host.Outcome State Fault Refusal :=
  .next (next (writeResultFlag s x (shrResult (readReg s x)) (shrFlag (readReg s x))))

/-- SHL (R191): Vx in place, Vy ignored (D10; log 9). -/
def execShl (x _y : RegIdx) (s : State) : Host.Outcome State Fault Refusal :=
  .next (next (writeResultFlag s x (shlResult (readReg s x)) (shlFlag (readReg s x))))

/-- RND (R192): the free random byte under the mask; the draw is consumed (R131). -/
def execRnd (x : RegIdx) (kk : Byte) (s : State) : Host.Outcome State Fault Refusal :=
  .next (next (consumeDraw (writeReg s x (maskRandom (randomByte s) kk))))

end Sys2Proof.Machine
end

