-- ==== Sys2Proof/Machine/Control.lean ====
section
/-! DEFINITION. The control-flow instructions (`spec/41_control_flow.md` R160 to R168). -/

namespace Sys2Proof.Machine

/-- RET (R161): pop, and continue one instruction width after the popped address; fatal with an empty stack. -/
def execRet (s : State) : Host.Outcome State Fault Refusal :=
  match popAddr s with
  | none => .next (raiseFatal .stackUnderflow (encodeWord .ret) s)
  | some (a, t) => .next (t.setPc (a + 2#16))

/-- JP (R162). -/
def execJp (nnn : Addr) (s : State) : Host.Outcome State Fault Refusal :=
  .next (s.setPc (zextAddr nnn))

/-- CALL (R163): push the address of this CALL, and jump; fatal with a full stack. -/
def execCall (nnn : Addr) (s : State) : Host.Outcome State Fault Refusal :=
  match pushPc s with
  | none => .next (raiseFatal .stackOverflow (encodeWord (.call nnn)) s)
  | some t => .next (t.setPc (zextAddr nnn))

/-- SE_IMM (R164). -/
def execSeImm (x : RegIdx) (kk : Byte) (s : State) : Host.Outcome State Fault Refusal :=
  .next (skipIf (readReg s x == kk) s)

/-- SNE_IMM (R165). -/
def execSneImm (x : RegIdx) (kk : Byte) (s : State) : Host.Outcome State Fault Refusal :=
  .next (skipIf (readReg s x != kk) s)

/-- SE_REG (R166). -/
def execSeReg (x y : RegIdx) (s : State) : Host.Outcome State Fault Refusal :=
  .next (skipIf (readReg s x == readReg s y) s)

/-- SNE_REG (R167). -/
def execSneReg (x y : RegIdx) (s : State) : Host.Outcome State Fault Refusal :=
  .next (skipIf (readReg s x != readReg s y) s)

/-- JP_V0 (R168): the sum is not reduced to 12 bits. -/
def execJpV0 (nnn : Addr) (s : State) : Host.Outcome State Fault Refusal :=
  .next (s.setPc (zextAddr nnn + zextByte (readReg s 0)))

end Sys2Proof.Machine
end

