-- ==== Sys2Proof/Machine/Display.lean ====
section
/-! DEFINITION. The display buffer and its two instructions (`spec/43_display.md` R200 to R204). -/

namespace Sys2Proof.Machine

/-- `fb[row][col]`. -/
def pixelAt (d : Display) (row : Fin 32) (col : Fin 64) : Bool := d[row][col]

/-- `fb[row][col] <- b`. -/
def setPixel (d : Display) (row : Fin 32) (col : Fin 64) (b : Bool) : Display := d.set row (d[row].set col b)

/-- The display with every pixel 0. -/
def blankDisplay : Display := Vector.replicate 32 (Vector.replicate 64 false)

/-- R202: sprite column `j` of a sprite at `cx` lands in column `(cx + j) mod 64`. -/
def spriteCol (cx : Byte) (j : Nat) : Fin 64 := Fin.ofNat 64 (cx.toNat + j)

/-- R202: sprite row `r` of a sprite at `cy` lands in row `(cy + r) mod 32`. -/
def spriteRow (cy : Byte) (r : Nat) : Fin 32 := Fin.ofNat 32 (cy.toNat + r)

/-- R202: bit of a sprite byte at sprite column `j`; the most significant bit is the leftmost. -/
def spriteBit (b : Byte) (j : Nat) : Bool := b.getLsbD (7 - j)

/-- R201: one pixel of the blit: the collision test on the original pixel, then the XOR. The second component is `hit`. -/
def blitPixel (cx cy b : Byte) (r : Nat) (acc : Display × Bool) (j : Nat) : Display × Bool :=
  let old := pixelAt acc.1 (spriteRow cy r) (spriteCol cx j)
  (setPixel acc.1 (spriteRow cy r) (spriteCol cx j) (old ^^ spriteBit b j), acc.2 || (old && spriteBit b j))

/-- R201: the eight pixels of one sprite row, left to right. -/
def blitRow (cx cy b : Byte) (r : Nat) (acc : Display × Bool) : Display × Bool :=
  (List.range 8).foldl (blitPixel cx cy b r) acc

/-- R201: the first `n` sprite rows, read at ascending addresses from `base`. -/
def blitRows (m : Memory) (cx cy : Byte) (base n : Nat) (d : Display) : Display × Bool :=
  (List.range n).foldl (fun acc r => blitRow cx cy (memRead m (base + r)) r acc) (d, false)

/-- CLS (R200). -/
def execCls (s : State) : Host.Outcome State Fault Refusal :=
  .next (next ((s.setFb blankDisplay).setDirty true))

/-- DRW (R201): the coordinates and I are read before VF is written (R203). -/
def execDrw (x y : RegIdx) (n : Nibble) (s : State) : Host.Outcome State Fault Refusal :=
  let res := blitRows s.mem (readReg s x) (readReg s y) (indexAddr s 0) n.toNat s.fb
  .next (next ((writeFlag (s.setFb res.1) res.2).setDirty true))

end Sys2Proof.Machine
end

