-- ==== Sys2Proof/Machine/IndexMemory.lean ====
section
/-! DEFINITION. The index-register and memory instructions (`spec/45_index_memory.md` R220 to R227). -/

namespace Sys2Proof.Machine

/-- LD_I (R221). -/
def execLdI (nnn : Addr) (s : State) : Host.Outcome State Fault Refusal :=
  .next (next (s.setI (zextAddr nnn)))

/-- ADD_I (R222): modulo 65536, never reduced to 12 bits; VF is left alone. -/
def execAddI (x : RegIdx) (s : State) : Host.Outcome State Fault Refusal :=
  .next (next (s.setI (s.i + zextByte (readReg s x))))

/-- LD_F (R223). -/
def execLdF (x : RegIdx) (s : State) : Host.Outcome State Fault Refusal :=
  .next (next (s.setI (glyphAddr (readReg s x))))

/-- LD_B (R224): I is not changed. -/
def execLdB (x : RegIdx) (s : State) : Host.Outcome State Fault Refusal :=
  .next (next (s.setMem (storeBytes s.mem (indexAddr s 0) (bcdDigits (readReg s x)))))

/-- LD_MEM_VX (R225). -/
def execLdMemVx (x : RegIdx) (s : State) : Host.Outcome State Fault Refusal :=
  .next (next ((s.setMem (storeBytes s.mem (indexAddr s 0) (regRange s x))).setI (indexAdvanced s x)))

/-- LD_VX_MEM (R226). -/
def execLdVxMem (x : RegIdx) (s : State) : Host.Outcome State Fault Refusal :=
  .next (next ((s.setRegs (loadRegs s.mem (indexAddr s 0) s.regs (x.val + 1))).setI (indexAdvanced s x)))

end Sys2Proof.Machine
end

