-- ==== Sys2Proof/Machine/KeysTimers.lean ====
section
/-! DEFINITION. The key and timer instructions (`spec/44_keys_timers.md` R210 to R216). -/

namespace Sys2Proof.Machine

/-- SKP (R211). -/
def execSkp (x : RegIdx) (s : State) : Host.Outcome State Fault Refusal :=
  .next (skipIf (keyDown s (keyIndex (readReg s x))) s)

/-- SKNP (R212). -/
def execSknp (x : RegIdx) (s : State) : Host.Outcome State Fault Refusal :=
  .next (skipIf (!keyDown s (keyIndex (readReg s x))) s)

/-- LD_VX_DT (R213). -/
def execLdVxDt (x : RegIdx) (s : State) : Host.Outcome State Fault Refusal :=
  .next (next (writeReg s x s.dt))

/-- LD_DT_VX (R214). -/
def execLdDtVx (x : RegIdx) (s : State) : Host.Outcome State Fault Refusal :=
  .next (next (s.setDt (readReg s x)))

/-- LD_ST_VX (R215). -/
def execLdStVx (x : RegIdx) (s : State) : Host.Outcome State Fault Refusal :=
  .next (next (s.setSt (readReg s x)))

/-- LD_VX_K (R216): the wait begins with the next cycle; Vx is written by the arbiter (`Cycle.lean`). -/
def execLdVxK (x : RegIdx) (s : State) : Host.Outcome State Fault Refusal :=
  .next (next (s.setWait (some x)))

end Sys2Proof.Machine
end

