-- ==== Sys2Proof/Machine/Cycle.lean ====
section
/-! DEFINITION. The cycle driver (`spec/40_cycle_and_host.md` R120 to R131): `runCycle` is the pseudocode of R120, with the
key-wait arbiter (R124), the fatal path (R128) and the timer tick (R129). -/

namespace Sys2Proof.Machine

/-- R41: the cycle state. -/
def cycleState (s : State) : CycleState :=
  match s.halt, s.wait with
  | some _, _ => .halted
  | none, some r => .awaitingKey r
  | none, none => .running

/-- R124: the least index of a pressed key. -/
def firstKey (keys : BitVec 16) : Option Nat := (List.range 16).find? (fun k => keys.getLsbD k)

/-- R124: a cycle spent in AwaitingKey(r): the first key found goes to `V[r]` and ends the wait. -/
def scanKeys (r : RegIdx) (s : State) : State :=
  match firstKey s.keys with
  | some k => (writeReg s r (BitVec.ofNat 8 k)).setWait none
  | none => s

/-- R129: a timer one lower, floor 0. -/
def tickDown (t : Byte) : Byte := if t = 0x00#8 then 0x00#8 else t - 1#8

/-- R129: both timers ticked. -/
def tickTimers (s : State) : State := (s.setDt (tickDown s.dt)).setSt (tickDown s.st)

/-- R120 lines 12 to 15: no tick in a cycle that halts (R128). -/
def endCycle (s : State) : State :=
  match s.halt with
  | some _ => s
  | none => tickTimers s

/-- R120 lines 7 to 15: a Running cycle. -/
def runInstr (s : State) : Host.Outcome State Fault Refusal :=
  match decodeWord (fetchWord s) with
  | none => .next (raiseFatal .unknownOpcode (fetchWord s) s)
  | some i =>
    match exec i s with
    | .next t => .next (endCycle t)
    | .fault f => .fault f
    | .refused r => .refused r

/-- R120: `run_cycle`. -/
def runCycle (s : State) : Host.Outcome State Fault Refusal :=
  match cycleState s with
  | .halted => .next (s.setDirty false)
  | .awaitingKey r => .next (scanKeys r (s.setDirty false))
  | .running => runInstr (s.setDirty false)

/-- A word put where the next cycle fetches, in a state made Running, so that the next cycle executes it (log 12). -/
def placeWord (s : State) (op : Word) : State :=
  let m := memWrite (memWrite s.mem s.pc.toNat (highByte op)) (s.pc.toNat + 1) (lowByte op)
  ((s.setMem m).setWait none).setHalt none

end Sys2Proof.Machine
end

