-- ==== Sys2Proof/Machine/Step.lean ====
section
/-! DEFINITION. The one step of the core (`spec/40_cycle_and_host.md` R120), and the placing of a word for it. -/

namespace Sys2Proof.Machine

/-- One `run_cycle`. -/
def step (s : State) : Host.Outcome State Fault Refusal := runCycle s

/-- `s` with the table word `w` of `nbits` bits stored where `step` fetches, and Running (log 12). -/
def State.withFetchWord (s : State) (nbits w : Nat) : State := placeWord s (BitVec.ofNat 16 (w % 2 ^ nbits))

end Sys2Proof.Machine
end

