-- ==== Sys2Proof/Machine/HostOps.lean ====
section
/-! DEFINITION. The operations of the host (`spec/40_cycle_and_host.md` R132 to R140; `spec/70_reset_and_hazards.md` R270).
Each is atomic and falls between cycles (R286); a run is a sequence of moves (R141). -/

namespace Sys2Proof.Machine

/-- `reset` (R132, R270): every piece of the spec's state at its reset value. The model's own `draws` goes on, so that
the bytes drawn after a reset are not those drawn before it (log 2). -/
def hostReset (s : State) : State := State.reset.setDraws s.draws

/-- The bytes copied upward from `a`; bytes beyond the end of memory are not written (R77, R133). -/
def loadBytes (m : Memory) (a : Nat) (bytes : List Byte) : Memory :=
  match bytes with
  | [] => m
  | b :: rest => if a < Config.memSize then loadBytes (Memory.write m a b) (a + 1) rest else m

/-- `load_program(bytes)` (R133): the copy to PROGRAM_ORIGIN, and nothing else (D24). -/
def loadProgram (bytes : List Byte) (s : State) : State := s.setMem (loadBytes s.mem Config.programOrigin bytes)

/-- `set_key(index, pressed)` (R134), defined for an index of 0 to 15. -/
def setKey (k : Fin 16) (pressed : Bool) (s : State) : State :=
  s.setKeys (if pressed then s.keys ||| BitVec.twoPow 16 k.val else s.keys &&& ~~~(BitVec.twoPow 16 k.val))

/-- `set_all_keys(bitset)` (R135): bit k is key k. -/
def setAllKeys (bits : BitVec 16) (s : State) : State := s.setKeys bits

/-- `display_dirty()` (R136). -/
def displayDirty (s : State) : Bool := s.dirty

/-- `read_display()` (R137), as a grid. -/
def readDisplay (s : State) : Display := s.fb

/-- `read_display()` (R137), flattened row by row, one byte per pixel, value 0 or 1. -/
def readDisplayFlat (s : State) : List Byte :=
  s.fb.toList.flatMap (fun row => row.toList.map (fun p => if p then 0x01#8 else 0x00#8))

/-- `sound_timer_value()` (R138). -/
def soundTimerValue (s : State) : Byte := s.st

/-- `delay_timer_value()` (R138). -/
def delayTimerValue (s : State) : Byte := s.dt

/-- `halt_record()` (R139): the code's number, the opcode, the address. -/
def haltRecord (s : State) : Option (Nat × Word × Word) :=
  s.halt.map (fun h => (fatalNumber h.code, h.opcode, h.addr))

/-- The moves of the host that change the state (R140); the reads above change nothing. An index above 15 is no move
(R134). -/
inductive HostMove where
  /-- `reset` -/
  | reset
  /-- `load_program` -/
  | loadProgram (bytes : List Byte)
  /-- `set_key` -/
  | setKey (k : Fin 16) (pressed : Bool)
  /-- `set_all_keys` -/
  | setAllKeys (bits : BitVec 16)
  /-- `run_cycle` -/
  | runCycle
deriving DecidableEq, Repr

/-- The effect of one move. -/
def applyMove (mv : HostMove) (s : State) : Host.Outcome State Fault Refusal :=
  match mv with
  | .reset => .next (hostReset s)
  | .loadProgram bytes => .next (loadProgram bytes s)
  | .setKey k pressed => .next (setKey k pressed s)
  | .setAllKeys bits => .next (setAllKeys bits s)
  | .runCycle => step s

/-- R141: a run of the machine under its host. -/
def runMoves (mvs : List HostMove) (s : State) : Host.Outcome State Fault Refusal :=
  match mvs with
  | [] => .next s
  | mv :: rest =>
    match applyMove mv s with
    | .next t => runMoves rest t
    | .fault f => .fault f
    | .refused r => .refused r

end Sys2Proof.Machine
end

