-- ==== Sys2Proof/Safety.lean ====
section
/-! DEFINITION. What counts as a safe run, and the terms that claims use: the outcome a cycle counts as (R257), which
registers an instruction reads and writes (`spec/10_state.md` R21, R22), the footprint of an instruction and its frame,
and the invariant of the state. -/

namespace Sys2Proof.Safety

open Sys2Proof.Machine

/-! ### Safe runs -/

/-- The reading of one cycle that `spec/60_exceptions.md` R257 gives: the cycle that sets `halt`, and every cycle of a
Halted core, is a fault that carries the halt record; every other cycle is a next state (log 1). -/
def judgedStep (s : State) : Host.Outcome State Fault Refusal :=
  match step s with
  | .next t =>
    match t.halt with
    | some h => .fault (.fatal h)
    | none => .next t
  | .fault f => .fault f
  | .refused r => .refused r

/-- A run of cycles is safe as long as no cycle is judged a fault: Halted is never a successful end (R141, R247). -/
def SafeFor (k : Nat) (s : State) : Prop :=
  ∀ j ≤ k, ∀ t, Host.Core.run Sys2Proof.core j s = .next t → t.halt = none

/-- The conventional end of a program (R141): Running, with pc at a jump to itself. -/
def AtSelfJump (s : State) : Prop :=
  cycleState s = .running ∧ ∃ nnn : Addr, decodeWord (fetchWord s) = some (.jp nnn) ∧ nnn.toNat = s.pc.toNat

/-! ### Registers read and written (R21, R22) -/

/-- R21: the instruction reads `V[r]`. -/
def readsReg : Instr → RegIdx → Bool
  | .cls, _ => false
  | .ret, _ => false
  | .jp _, _ => false
  | .call _, _ => false
  | .seImm x _, r => r == x
  | .sneImm x _, r => r == x
  | .seReg x y, r => r == x || r == y
  | .ldImm _ _, _ => false
  | .addImm x _, r => r == x
  | .ldReg _ y, r => r == y
  | .orReg x y, r => r == x || r == y
  | .andReg x y, r => r == x || r == y
  | .xorReg x y, r => r == x || r == y
  | .addReg x y, r => r == x || r == y
  | .sub x y, r => r == x || r == y
  | .shr x _, r => r == x
  | .subn x y, r => r == x || r == y
  | .shl x _, r => r == x
  | .sneReg x y, r => r == x || r == y
  | .ldI _, _ => false
  | .jpV0 _, r => r == 0
  | .rnd _ _, _ => false
  | .drw x y _, r => r == x || r == y
  | .skp x, r => r == x
  | .sknp x, r => r == x
  | .ldVxDt _, _ => false
  | .ldVxK _, _ => false
  | .ldDtVx x, r => r == x
  | .ldStVx x, r => r == x
  | .addI x, r => r == x
  | .ldF x, r => r == x
  | .ldB x, r => r == x
  | .ldMemVx x, r => decide (r ≤ x)
  | .ldVxMem _, _ => false

/-- R21, R22: the instruction writes `V[r]`, as its destination or as a flag. -/
def writesReg : Instr → RegIdx → Bool
  | .cls, _ => false
  | .ret, _ => false
  | .jp _, _ => false
  | .call _, _ => false
  | .seImm _ _, _ => false
  | .sneImm _ _, _ => false
  | .seReg _ _, _ => false
  | .ldImm x _, r => r == x
  | .addImm x _, r => r == x
  | .ldReg x _, r => r == x
  | .orReg x _, r => r == x
  | .andReg x _, r => r == x
  | .xorReg x _, r => r == x
  | .addReg x _, r => r == x || r == 15
  | .sub x _, r => r == x || r == 15
  | .shr x _, r => r == x || r == 15
  | .subn x _, r => r == x || r == 15
  | .shl x _, r => r == x || r == 15
  | .sneReg _ _, _ => false
  | .ldI _, _ => false
  | .jpV0 _, _ => false
  | .rnd x _, r => r == x
  | .drw _ _ _, r => r == 15
  | .skp _, _ => false
  | .sknp _, _ => false
  | .ldVxDt x, r => r == x
  | .ldVxK _, _ => false
  | .ldDtVx _, _ => false
  | .ldStVx _, _ => false
  | .addI _, _ => false
  | .ldF _, _ => false
  | .ldB _, _ => false
  | .ldMemVx _, _ => false
  | .ldVxMem x, r => decide (r ≤ x)

/-- R22: the six instructions that define VF as a flag. -/
def definesFlag : Instr → Prop
  | .addReg _ _ => True
  | .sub _ _ => True
  | .subn _ _ => True
  | .shr _ _ => True
  | .shl _ _ => True
  | .drw _ _ _ => True
  | .cls | .ret | .jp _ | .call _ | .seImm _ _ | .sneImm _ _ | .seReg _ _ | .ldImm _ _ | .addImm _ _ => False
  | .ldReg _ _ | .orReg _ _ | .andReg _ _ | .xorReg _ _ | .sneReg _ _ | .ldI _ | .jpV0 _ | .rnd _ _ => False
  | .skp _ | .sknp _ | .ldVxDt _ | .ldVxK _ | .ldDtVx _ | .ldStVx _ | .addI _ | .ldF _ | .ldB _ => False
  | .ldMemVx _ | .ldVxMem _ => False

/-! ### Frames -/

/-- What an instruction may change besides pc. `stores` lists the memory indexes (reduced addresses) stored to. -/
structure Footprint where
  regs : List RegIdx := []
  index : Bool := false
  stack : Bool := false
  stores : List Nat := []
  display : Bool := false
  delayTimer : Bool := false
  soundTimer : Bool := false
  wait : Bool := false
  dirty : Bool := false
  draws : Bool := false

/-- Everything outside the footprint `f`, and besides pc, is in `t` as it was in `s`. The key latch and the halt record
are in no footprint. -/
def Frame (f : Footprint) (s t : State) : Prop :=
  (∀ r, r ∉ f.regs → readReg t r = readReg s r) ∧
  (f.index = false → t.i = s.i) ∧
  (f.stack = false → t.sp = s.sp ∧ t.stack = s.stack) ∧
  (∀ a, effAddr a ∉ f.stores → readByte t a = readByte s a) ∧
  (f.display = false → t.fb = s.fb) ∧
  (f.delayTimer = false → t.dt = s.dt) ∧
  (f.soundTimer = false → t.st = s.st) ∧
  (f.wait = false → t.wait = s.wait) ∧
  (f.dirty = false → t.dirty = s.dirty) ∧
  (f.draws = false → t.draws = s.draws) ∧
  t.keys = s.keys ∧ t.halt = s.halt

/-- The registers V0 to Vx. -/
def regsUpTo (x : RegIdx) : List RegIdx := (List.finRange 16).filter (fun r => decide (r ≤ x))

/-- The memory indexes of `k` bytes from the address in I: the addresses the meanings store to (R220). -/
def indexedBytes (s : State) (k : Nat) : List Nat := (List.range k).map (fun j => effAddr (indexAddr s j))

/-! ### The invariant -/

/-- A halt record tells what stopped the core (R240, R246): pc still addresses the instruction, and the condition its
code names holds. -/
def HaltRecordTrue (s : State) (h : HaltRecord) : Prop :=
  h.addr = s.pc ∧
  match h.code with
  | .unknownOpcode => decodeWord h.opcode = none
  | .stackOverflow => s.sp = 16 ∧ ∃ nnn, decodeWord h.opcode = some (.call nnn)
  | .stackUnderflow => s.sp = 0 ∧ h.opcode = 0x00EE#16

/-- The invariant of the state: memory in its canonical form; a halt record that is true, and with it no pending key
wait (R41); and `dirty` set only in a state that is Running (R121: a cycle that leaves AwaitingKey or Halted behind it
executed neither CLS nor DRW). -/
def StateInv (s : State) : Prop :=
  Memory.wf s.mem = true ∧
  (∀ h, s.halt = some h → HaltRecordTrue s h ∧ s.wait = none) ∧
  (s.dirty = true → cycleState s = .running)

/-- pc is even, and so is every return address on the stack (`spec/10_state.md` R26). -/
def EvenCode (s : State) : Prop :=
  s.pc.toNat % 2 = 0 ∧ ∀ j : Fin 16, j.val < s.sp.val → s.stack[j].toNat % 2 = 0

end Sys2Proof.Safety
end

