-- ==== Sys2Proof/Certificates/Slice0/Obligations.lean ====
section
/-! DEFINITION. The statements for the provers. `Frame`, `StateInv` and the other terms are those of `Safety.lean`. Where a
statement rests on one of the spec's own decisions (`spec/92_eei_decisions.md` D<n>) or on a log entry, its docstring
says so. Throughout, pc + 2 and pc + 4 wrap modulo 65536 (R26; the width of pc is the spec's decision D4). -/

open Sys2Proof Sys2Proof.Machine Sys2Proof.Safety

/-! ### Encoding -/

/-- A few words written out from the table of R94 decode to the instructions they stand for (the patterns are the
spec's decision D1). -/
def Obligations.DecodesWrittenWords : Prop :=
  decodeBytes [0x00, 0xE0] = .instr .cls [] ∧
  decodeBytes [0x00, 0xEE] = .instr .ret [] ∧
  decodeBytes [0x1A, 0xBC] = .instr (.jp 0xABC) [] ∧
  decodeBytes [0x43, 0x2A] = .instr (.sneImm 3 0x2A) [] ∧
  decodeBytes [0x53, 0x40] = .instr (.seReg 3 4) [] ∧
  decodeBytes [0x81, 0x26] = .instr (.shr 1 2) [] ∧
  decodeBytes [0xD0, 0x15] = .instr (.drw 0 1 5) [] ∧
  decodeBytes [0xEB, 0xA1] = .instr (.sknp 11) [] ∧
  decodeBytes [0xF2, 0x55] = .instr (.ldMemVx 2) [] ∧
  decodeBytes [0x51, 0x21] = .unrecognised 0x5121 ∧
  decodeBytes [0x00, 0x00] = .unrecognised 0x0000

/-- Decoding what R102 encodes gives the instruction back, with every operand at every value the encoding admits, and
leaves the bytes after it (the patterns are the spec's decision D1). -/
def Obligations.DecodeOfEncodeIsTheInstruction : Prop :=
  ∀ (i : Instr) (rest : List Byte), i.wellFormed = true →
    decodeWord (encodeWord i) = some i ∧ decodeBytes (encodeBytes i ++ rest) = .instr i rest

/-- Encoding what a word decodes to gives the word back: no bit of a recognised word is dropped (the patterns are the
spec's decision D1). -/
def Obligations.EncodeOfDecodeIsTheWord : Prop :=
  ∀ (op : Word) (i : Instr), decodeWord op = some i → encodeWord i = op

/-- R94: a word is the instruction of a row exactly when `op & mask = match`; at most one row matches a word; a word
that matches no row decodes to nothing (the patterns are the spec's decision D1, exact matching D3). -/
def Obligations.DecodeSelectsByTheOpcodeTable : Prop :=
  ∀ op : Word,
    (decodeWord op = none ↔ ∀ r ∈ opcodeTable, r.hits op = false) ∧
    (∀ i, decodeWord op = some i →
      (rowOf i).hits op = true ∧ ∀ r ∈ opcodeTable, r.hits op = true → r = rowOf i)

/-- R96: the unrecognised words, group by group (the patterns are the spec's decision D1; `0nnn` D2; exact matching
D3). -/
def Obligations.UnrecognisedWordsAreExactlyThese : Prop :=
  ∀ op : Word, decodeWord op = none ↔
    (fieldG op = 0x0 ∧ fieldNNN op ≠ 0x0E0 ∧ fieldNNN op ≠ 0x0EE) ∨
    (fieldG op = 0x5 ∧ fieldN op ≠ 0) ∨
    (fieldG op = 0x8 ∧ fieldN op ∈ [0x8, 0x9, 0xA, 0xB, 0xC, 0xD, 0xF]) ∨
    (fieldG op = 0x9 ∧ fieldN op ≠ 0) ∨
    (fieldG op = 0xE ∧ fieldKK op ∉ [0x9E, 0xA1]) ∨
    (fieldG op = 0xF ∧ fieldKK op ∉ [0x07, 0x0A, 0x15, 0x18, 0x1E, 0x29, 0x33, 0x55, 0x65])

/-! ### Reset -/

/-- R40, R270: what reset leaves. The lines for the display, the keys, `dirty` and `halt` are the spec's decisions D15,
D16 and D17; the place and the bytes of the font D7 and D8. R132, R271: from every state the host's reset leaves exactly that
state (that it may be applied again is D18): nothing of the spec's state survives, only the model's own `draws` (log 2). -/
def Obligations.ResetState : Prop :=
  (∀ r, readReg State.reset r = 0x00) ∧ State.reset.i = 0x0000 ∧ State.reset.pc = 0x0200 ∧ State.reset.sp = 0 ∧
  (∀ j : Fin 16, State.reset.stack[j] = 0x0000) ∧
  (∀ a, a < 4096 → readByte State.reset a =
    if config.fontBase ≤ a ∧ a < config.fontBase + 80 then config.fontTable.getD (a - config.fontBase) 0x00 else 0x00) ∧
  config.fontTable.length = 80 ∧ config.fontBase + 80 ≤ 0x200 ∧
  (∀ row col, pixelAt State.reset.fb row col = false) ∧
  State.reset.dt = 0x00 ∧ State.reset.st = 0x00 ∧ (∀ k, keyDown State.reset k = false) ∧
  cycleState State.reset = .running ∧ State.reset.wait = none ∧ State.reset.halt = none ∧ State.reset.dirty = false ∧
  (∀ s, hostReset s = { State.reset with draws := s.draws }) ∧
  (∀ s, applyMove .reset s = .next (hostReset s))

/-- R272, R281: after a reset with no program loaded, the first cycle fetches 0x0000 from 0x200 and halts with
UnknownOpcode, whatever state the reset was applied to, and changes nothing else (the form of the halt is the spec's
decision D17, resetting again D18). -/
def Obligations.ResetWithoutAProgramHalts : Prop :=
  ∀ s, step (hostReset s) = .next { hostReset s with halt := some ⟨.unknownOpcode, 0x0000, 0x0200⟩ } ∧
    cycleState (hostReset s) = .running

/-! ### The cycle -/

/-- R63, R120, R127: in a Running cycle, when the two bytes at pc (each address modulo 4096, D5; the first byte high)
decode to `i`, the step is the handler of `i` on the state with `dirty` cleared, followed by the tick of both timers where
the handler raised no fatal condition, and by nothing where it did (D17). -/
def Obligations.StepRunsTheDecodedInstruction : Prop :=
  ∀ (s t : State) (i : Instr), s.halt = none → s.wait = none →
    decodeWord (Memory.read s.mem (s.pc.toNat % 4096) ++ Memory.read s.mem ((s.pc.toNat + 1) % 4096)) = some i →
    exec i { s with dirty := false } = .next t →
    (t.halt = none → step s = .next
      { t with dt := BitVec.ofNat 8 (t.dt.toNat - 1), st := BitVec.ofNat 8 (t.st.toNat - 1) }) ∧
    (t.halt ≠ none → step s = .next t)

/-- R257: every state has a next state under the step, and every instruction a next state under its handler: there is
no refusal, and the fatal cycle is a next state whose `halt` is set (log 1). -/
def Obligations.EveryStepAnswersANextState : Prop :=
  (∀ s, ∃ t, step s = .next t) ∧ (∀ (i : Instr) (s : State), ∃ t, exec i s = .next t)

/-- R257: read as that rule reads a cycle (`Safety.judgedStep`, log 1), a cycle is a fault exactly where the core is Halted or
meets one of the three fatal conditions, the fault carries the record that the cycle leaves in `halt`, every other cycle
is the step's own next state, and no cycle is a refusal (the fatal conditions are the spec's decision D17). -/
def Obligations.JudgedOutcomesOfACycle : Prop :=
  ∀ s : State,
    ((∃ f, judgedStep s = .fault f) ↔ cycleState s = .halted ∨ (cycleState s = .running ∧
      (decodeWord (fetchWord s) = none ∨ (∃ nnn, decodeWord (fetchWord s) = some (.call nnn) ∧ s.sp = 16) ∨
        (decodeWord (fetchWord s) = some .ret ∧ s.sp = 0)))) ∧
    (∀ h, judgedStep s = .fault (.fatal h) → ∃ t, step s = .next t ∧ t.halt = some h) ∧
    (∀ t, judgedStep s = .next t → step s = .next t) ∧
    (∀ r, judgedStep s ≠ .refused r)

/-- R121: after a cycle `dirty` is true exactly when that cycle executed CLS or DRW. -/
def Obligations.DirtyReportsTheLastCycle : Prop :=
  ∀ s t, step s = .next t →
    (t.dirty = true ↔ cycleState s = .running ∧
      (decodeWord (fetchWord s) = some .cls ∨ ∃ x y n, decodeWord (fetchWord s) = some (.drw x y n)))

/-- R122, R247: a Halted core clears `dirty` and does nothing else, for any number of cycles (D18). -/
def Obligations.HaltedIsAbsorbing : Prop :=
  ∀ (k : Nat) (s : State), s.halt ≠ none →
    Host.Core.run Sys2Proof.core (k + 1) s = .next { s with dirty := false }

/-- R124: the blocking-key-wait arbiter. The least pressed key goes to the register and ends the wait; with no key down
only `dirty` is cleared. No fetch, pc and the timers stand still. -/
def Obligations.AwaitingKeyTakesTheLowestPressedKey : Prop :=
  ∀ (s : State) (r : RegIdx), s.halt = none → s.wait = some r →
    (∀ k : Fin 16, keyDown s k = true → (∀ j < k.val, keyDown s j = false) →
      step s = .next { s with dirty := false, wait := none, regs := s.regs.set r (BitVec.ofNat 8 k) }) ∧
    ((∀ k < 16, keyDown s k = false) → step s = .next { s with dirty := false })

/-- R123: the transitions of the cycle state machine (Halted and its rows are the spec's decisions D17 and D18). -/
def Obligations.CycleStateTransitions : Prop :=
  ∀ s t, step s = .next t →
    (cycleState s = .running →
      (∀ x, cycleState t = .awaitingKey x ↔ decodeWord (fetchWord s) = some (.ldVxK x)) ∧
      (cycleState t = .halted ↔ decodeWord (fetchWord s) = none ∨
        (∃ nnn, decodeWord (fetchWord s) = some (.call nnn) ∧ s.sp = 16) ∨
        (decodeWord (fetchWord s) = some .ret ∧ s.sp = 0))) ∧
    (∀ r, cycleState s = .awaitingKey r →
      cycleState t = if ∃ k : Fin 16, keyDown s k = true then .running else .awaitingKey r) ∧
    (cycleState s = .halted → cycleState t = .halted)

/-- R128, R240, R244, R246: a Running cycle halts with a record exactly on the three fatal conditions; the record holds
the code, the word that was fetched and the pc it was fetched at; and the cycle that halts changes nothing but `halt` and
the clearing of `dirty`: pc still addresses the instruction and the timers do not tick (codes, record and precision are
the spec's decision D17). -/
def Obligations.HaltsExactlyOnTheThreeFatalConditions : Prop :=
  ∀ (s t : State), cycleState s = .running → step s = .next t →
    (∀ h : HaltRecord, t.halt = some h ↔ h.opcode = fetchWord s ∧ h.addr = s.pc ∧
      ((decodeWord (fetchWord s) = none ∧ h.code = .unknownOpcode) ∨
       (∃ nnn, decodeWord (fetchWord s) = some (.call nnn) ∧ s.sp = 16 ∧ h.code = .stackOverflow) ∨
       (decodeWord (fetchWord s) = some .ret ∧ s.sp = 0 ∧ h.code = .stackUnderflow))) ∧
    (t.halt ≠ none → t = { s with dirty := false, halt := t.halt })

/-- R129: each timer falls by one, floor 0, at the end of a Running cycle that completes its instruction, after the
handler; it stands still in a cycle that starts AwaitingKey or Halted or that halts. LD_VX_DT reads the value before this
cycle's tick. (Natural subtraction has floor 0.) That the timers stand still in a cycle that halts is the spec's decision
D17, in a Halted cycle D18 (log 13). -/
def Obligations.TimersTickOncePerExecutedInstruction : Prop :=
  ∀ s t, step s = .next t →
    (cycleState s ≠ .running ∨ t.halt ≠ none → t.dt = s.dt ∧ t.st = s.st) ∧
    (∀ i, cycleState s = .running → t.halt = none → decodeWord (fetchWord s) = some i →
      (∀ x, i = .ldDtVx x → t.dt.toNat = (readReg s x).toNat - 1) ∧
      ((∀ x, i ≠ .ldDtVx x) → t.dt.toNat = s.dt.toNat - 1) ∧
      (∀ x, i = .ldStVx x → t.st.toNat = (readReg s x).toNat - 1) ∧
      ((∀ x, i ≠ .ldStVx x) → t.st.toNat = s.st.toNat - 1) ∧
      (∀ x, i = .ldVxDt x → readReg t x = s.dt))

/-- R33, R130: the core never writes the key latch, in no cycle (that the latch is state of the block is D15). -/
def Obligations.KeyLatchIsNeverWrittenByTheCore : Prop :=
  ∀ s t, step s = .next t → t.keys = s.keys

/-! ### Control flow -/

/-- R162, R168: JP and JP_V0. The sum of JP_V0 never wraps and is not reduced to 12 bits, and its register is always V0
(the width of pc is the spec's decision D4). -/
def Obligations.JumpsSetPc : Prop :=
  ∀ (nnn : Addr) (s : State),
    (∃ t, exec (.jp nnn) s = .next t ∧ t.pc.toNat = nnn.toNat ∧ Frame {} s t) ∧
    (∃ t, exec (.jpV0 nnn) s = .next t ∧ t.pc.toNat = nnn.toNat + (readReg s 0).toNat ∧ Frame {} s t)

/-- R163: CALL with a free slot pushes the address of this CALL and jumps (that sp counts occupied slots is the spec's
decision D9). -/
def Obligations.CallPushesItsOwnAddress : Prop :=
  ∀ (nnn : Addr) (s : State), s.sp.val < 16 → ∃ t, exec (.call nnn) s = .next t ∧
    t.pc.toNat = nnn.toNat ∧ t.sp.val = s.sp.val + 1 ∧
    (∀ j : Fin 16, t.stack[j] = if j.val = s.sp.val then s.pc else s.stack[j]) ∧ Frame { stack := true } s t

/-- R161, R163, R242 to R244: CALL with a full stack and RET with an empty one halt, with the record of the code, the
opcode and pc, and change nothing else (codes and record are the spec's decision D17, the stack's convention D9). -/
def Obligations.StackFaultsHaltAndChangeNothingElse : Prop :=
  ∀ (nnn : Addr) (s : State),
    (s.sp = 16 →
      exec (.call nnn) s = .next { s with halt := some ⟨.stackOverflow, 0x2000#16 ||| nnn.zeroExtend 16, s.pc⟩ }) ∧
    (s.sp = 0 → exec .ret s = .next { s with halt := some ⟨.stackUnderflow, 0x00EE, s.pc⟩ })

/-- R161: RET with an occupied slot continues two bytes after the popped address; the slot keeps its contents (that sp
counts occupied slots is the spec's decision D9). -/
def Obligations.ReturnPopsAndAddsTwo : Prop :=
  ∀ (s : State) (j : Fin 16), s.sp.val = j.val + 1 → ∃ t, exec .ret s = .next t ∧
    t.pc = s.stack[j] + 2#16 ∧ t.sp.val = j.val ∧ t.stack = s.stack ∧ Frame { stack := true } s t

/-- The source's call/return property (R161, R163): a return from a state with the stack pointer a call left, and with the
slots below it as the call left them, lands one instruction width after the call, with the stack pointer at its value
before the call (D9). The slots from the stack pointer up are free: the subroutine may itself have made calls. -/
def Obligations.CallThenReturnRoundTrip : Prop :=
  ∀ (nnn : Addr) (s t u : State), s.sp.val < 16 → exec (.call nnn) s = .next t → u.sp = t.sp →
    (∀ j : Fin 16, j.val < t.sp.val → u.stack[j] = t.stack[j]) →
    ∃ v, exec .ret u = .next v ∧ v.pc = s.pc + 2#16 ∧ v.sp = s.sp

/-- R164 to R167, R160: the four skips advance pc by two instruction widths where the condition holds and by one where it
does not, and change nothing else. -/
def Obligations.SkipsAdvanceByOneOrTwoInstructions : Prop :=
  ∀ (x y : RegIdx) (kk : Byte) (s : State),
    (∃ t, exec (.seImm x kk) s = .next t ∧ Frame {} s t ∧
      t.pc = if readReg s x = kk then s.pc + 4#16 else s.pc + 2#16) ∧
    (∃ t, exec (.sneImm x kk) s = .next t ∧ Frame {} s t ∧
      t.pc = if readReg s x = kk then s.pc + 2#16 else s.pc + 4#16) ∧
    (∃ t, exec (.seReg x y) s = .next t ∧ Frame {} s t ∧
      t.pc = if readReg s x = readReg s y then s.pc + 4#16 else s.pc + 2#16) ∧
    (∃ t, exec (.sneReg x y) s = .next t ∧ Frame {} s t ∧
      t.pc = if readReg s x = readReg s y then s.pc + 2#16 else s.pc + 4#16)

/-! ### Registers, arithmetic, logic, shifts, random -/

/-- R181, R183 to R186: LD_IMM, LD_REG, OR, AND and XOR write Vx, bit by bit as the operation says, and nothing else: VF
is left alone unless it is Vx. -/
def Obligations.LoadCopyAndLogicWriteVxOnly : Prop :=
  ∀ (x y : RegIdx) (kk : Byte) (s : State),
    (∃ t, exec (.ldImm x kk) s = .next t ∧ readReg t x = kk ∧ t.pc = s.pc + 2#16 ∧ Frame { regs := [x] } s t) ∧
    (∃ t, exec (.ldReg x y) s = .next t ∧ readReg t x = readReg s y ∧ t.pc = s.pc + 2#16 ∧
      Frame { regs := [x] } s t) ∧
    (∃ t, exec (.orReg x y) s = .next t ∧ t.pc = s.pc + 2#16 ∧ Frame { regs := [x] } s t ∧
      ∀ k, (readReg t x).getLsbD k = ((readReg s x).getLsbD k || (readReg s y).getLsbD k)) ∧
    (∃ t, exec (.andReg x y) s = .next t ∧ t.pc = s.pc + 2#16 ∧ Frame { regs := [x] } s t ∧
      ∀ k, (readReg t x).getLsbD k = ((readReg s x).getLsbD k && (readReg s y).getLsbD k)) ∧
    (∃ t, exec (.xorReg x y) s = .next t ∧ t.pc = s.pc + 2#16 ∧ Frame { regs := [x] } s t ∧
      ∀ k, (readReg t x).getLsbD k = ((readReg s x).getLsbD k ^^ (readReg s y).getLsbD k))

/-- R182: ADD_IMM wraps modulo 256 and sets no flag. -/
def Obligations.AddImmediateWrapsWithoutAFlag : Prop :=
  ∀ (x : RegIdx) (kk : Byte) (s : State), ∃ t, exec (.addImm x kk) s = .next t ∧
    (readReg t x).toNat = ((readReg s x).toNat + kk.toNat) % 256 ∧ t.pc = s.pc + 2#16 ∧ Frame { regs := [x] } s t

/-- R187, R193: ADD_REG. VF is the carry, also where it is Vx (the read-before-write order is the spec's decision
D11). -/
def Obligations.AddRegisterSetsCarry : Prop :=
  ∀ (x y : RegIdx) (s : State), ∃ t, exec (.addReg x y) s = .next t ∧
    (readReg t 15).toNat = (if 255 < (readReg s x).toNat + (readReg s y).toNat then 1 else 0) ∧
    (x ≠ 15 → (readReg t x).toNat = ((readReg s x).toNat + (readReg s y).toNat) % 256) ∧
    t.pc = s.pc + 2#16 ∧ Frame { regs := [x, 15] } s t

/-- R188, R193: SUB. VF is 1 on a borrow, also where it is Vx (the read-before-write order is the spec's decision
D11). -/
def Obligations.SubtractSetsBorrow : Prop :=
  ∀ (x y : RegIdx) (s : State), ∃ t, exec (.sub x y) s = .next t ∧
    (readReg t 15).toNat = (if (readReg s x).toNat < (readReg s y).toNat then 1 else 0) ∧
    (x ≠ 15 → (readReg t x).toNat = (256 + (readReg s x).toNat - (readReg s y).toNat) % 256) ∧
    t.pc = s.pc + 2#16 ∧ Frame { regs := [x, 15] } s t

/-- R189, R193: SUBN. VF is 1 exactly when Vx < Vy: the printed predicate, the spec's decision D12 (C3; log 7); the
read-before-write order is D11. -/
def Obligations.ReverseSubtractSetsFlagWhenVxBelowVy : Prop :=
  ∀ (x y : RegIdx) (s : State), ∃ t, exec (.subn x y) s = .next t ∧
    (readReg t 15).toNat = (if (readReg s x).toNat < (readReg s y).toNat then 1 else 0) ∧
    (x ≠ 15 → (readReg t x).toNat = (256 + (readReg s y).toNat - (readReg s x).toNat) % 256) ∧
    t.pc = s.pc + 2#16 ∧ Frame { regs := [x, 15] } s t

/-- R190, R191, R193: SHR and SHL shift Vx in place by one, whatever y is, and leave the bit shifted out in VF (in place
is the spec's decision D10; log 9). -/
def Obligations.ShiftsMoveVxInPlace : Prop :=
  ∀ (x y : RegIdx) (s : State),
    (∃ t, exec (.shr x y) s = .next t ∧ (readReg t 15).toNat = (readReg s x).toNat % 2 ∧
      (x ≠ 15 → (readReg t x).toNat = (readReg s x).toNat / 2) ∧ t.pc = s.pc + 2#16 ∧ Frame { regs := [x, 15] } s t) ∧
    (∃ t, exec (.shl x y) s = .next t ∧ (readReg t 15).toNat = (readReg s x).toNat / 128 ∧
      (x ≠ 15 → (readReg t x).toNat = (readReg s x).toNat * 2 % 256) ∧ t.pc = s.pc + 2#16 ∧
      Frame { regs := [x, 15] } s t)

/-- R192: RND writes the free random byte under the mask, whatever that byte is; every bit outside the mask is 0. The
draw is the model's own counter (D14; log 2). -/
def Obligations.RandomByteUnderTheMask : Prop :=
  ∀ (x : RegIdx) (kk : Byte) (s : State), ∃ t, exec (.rnd x kk) s = .next t ∧
    (∀ k, (readReg t x).getLsbD k = ((config.randomSource s.draws).getLsbD k && kk.getLsbD k)) ∧
    (∀ k, kk.getLsbD k = false → (readReg t x).getLsbD k = false) ∧
    t.draws = s.draws + 1 ∧ t.pc = s.pc + 2#16 ∧ Frame { regs := [x], draws := true } s t

/-- R21: no instruction writes a general register other than those the table of R21 names for it. -/
def Obligations.OnlyTheNamedRegistersAreWritten : Prop :=
  ∀ (i : Instr) (s t : State) (r : RegIdx), exec i s = .next t → writesReg i r = false → readReg t r = readReg s r

/-- R22, R193: the six instructions that define the flag leave VF 0x00 or 0x01, whatever it was and whatever their
operands (that the flag stays where x is 15 rests on the order of D11). -/
def Obligations.FlagInstructionsLeaveZeroOrOne : Prop :=
  ∀ (i : Instr) (s : State), definesFlag i →
    ∃ t, exec i s = .next t ∧ (readReg t 15 = 0x00 ∨ readReg t 15 = 0x01)

/-- R21: an instruction depends on no general register but those the table of R21 lets it read: giving a register it
neither reads nor writes another value changes nothing in the result but that register. -/
def Obligations.UntouchedRegistersAreInert : Prop :=
  ∀ (i : Instr) (s t : State) (r : RegIdx) (v : Byte), exec i s = .next t →
    readsReg i r = false → writesReg i r = false → exec i (writeReg s r v) = .next (writeReg t r v)

/-! ### Display -/

/-- R200: CLS zeroes every pixel and sets `dirty`. -/
def Obligations.ClearZeroesEveryPixel : Prop :=
  ∀ s : State, ∃ t, exec .cls s = .next t ∧ (∀ row col, pixelAt t.fb row col = false) ∧ t.dirty = true ∧
    t.pc = s.pc + 2#16 ∧ Frame { display := true, dirty := true } s t

/-- R201 to R204: DRW XORs bit 7 - j of the byte at I + r into the pixel at row (Vy + r) mod 32, column (Vx + j) mod 64,
for r below n and j below 8, and leaves every other pixel; VF is 1 exactly when a pixel went from 1 to 0; `dirty` is set.
The coordinates are those from before VF is written (D11); each address is reduced modulo 4096 (D5). -/
def Obligations.DrawXorsThePixelsOfTheSprite : Prop :=
  ∀ (x y : RegIdx) (n : Nibble) (s : State), ∃ t, exec (.drw x y n) s = .next t ∧
    (∀ (row : Fin 32) (col : Fin 64),
      (∀ r j, r < n.toNat → j < 8 → row.val = ((readReg s y).toNat + r) % 32 →
        col.val = ((readReg s x).toNat + j) % 64 →
        pixelAt t.fb row col = (pixelAt s.fb row col ^^ (readByte s (s.i.toNat + r)).getLsbD (7 - j))) ∧
      ((∀ r j, r < n.toNat → j < 8 →
          ¬ (row.val = ((readReg s y).toNat + r) % 32 ∧ col.val = ((readReg s x).toNat + j) % 64)) →
        pixelAt t.fb row col = pixelAt s.fb row col)) ∧
    (readReg t 15 = 0x00 ∨ readReg t 15 = 0x01) ∧
    (readReg t 15 = 0x01 ↔ ∃ row col, pixelAt s.fb row col = true ∧ pixelAt t.fb row col = false) ∧
    t.dirty = true ∧ t.pc = s.pc + 2#16 ∧ Frame { regs := [15], display := true, dirty := true } s t

/-- Vector V4 as a law (from R201): drawing the same sprite twice at the same place restores the display. -/
def Obligations.DrawingTwiceRestoresTheDisplay : Prop :=
  ∀ (x y : RegIdx) (n : Nibble) (s t : State), exec (.drw x y n) s = .next t →
    readReg t x = readReg s x → readReg t y = readReg s y →
    ∃ u, exec (.drw x y n) t = .next u ∧ u.fb = s.fb

/-- R30: the display is mutated only by the clear and draw instructions, in no cycle by anything else. -/
def Obligations.OnlyClearAndDrawMutateTheDisplay : Prop :=
  ∀ s t, step s = .next t → t.fb ≠ s.fb →
    cycleState s = .running ∧
      (decodeWord (fetchWord s) = some .cls ∨ ∃ x y n, decodeWord (fetchWord s) = some (.drw x y n))

/-! ### Keys and timers -/

/-- R211, R212, R210: SKP and SKNP test the key selected by the low four bits of Vx (the spec's decision D13; log 8) and
change nothing but pc. -/
def Obligations.KeySkipsTestTheLowFourBits : Prop :=
  ∀ (x : RegIdx) (s : State),
    (∃ t, exec (.skp x) s = .next t ∧ Frame {} s t ∧
      t.pc = if keyDown s ((readReg s x).toNat % 16) = true then s.pc + 4#16 else s.pc + 2#16) ∧
    (∃ t, exec (.sknp x) s = .next t ∧ Frame {} s t ∧
      t.pc = if keyDown s ((readReg s x).toNat % 16) = true then s.pc + 2#16 else s.pc + 4#16)

/-- R213, R214, R215: LD_VX_DT reads DT; LD_DT_VX and LD_ST_VX set a timer to Vx, and the tick of the same cycle then
applies to it (floor 0), as the spec infers in R214 from R129. No instruction reads ST: with another value in ST, every instruction does what it did. -/
def Obligations.TimerInstructionsMoveVxAndTheTimers : Prop :=
  ∀ (x : RegIdx) (s : State),
    (∃ t, exec (.ldVxDt x) s = .next t ∧ readReg t x = s.dt ∧ t.pc = s.pc + 2#16 ∧ Frame { regs := [x] } s t) ∧
    (∃ t, exec (.ldDtVx x) s = .next t ∧ t.dt = readReg s x ∧ t.pc = s.pc + 2#16 ∧ Frame { delayTimer := true } s t) ∧
    (∃ t, exec (.ldStVx x) s = .next t ∧ t.st = readReg s x ∧ t.pc = s.pc + 2#16 ∧ Frame { soundTimer := true } s t) ∧
    (cycleState s = .running → decodeWord (fetchWord s) = some (.ldVxDt x) →
      ∃ t, step s = .next t ∧ readReg t x = s.dt ∧ t.dt.toNat = s.dt.toNat - 1) ∧
    (cycleState s = .running → decodeWord (fetchWord s) = some (.ldDtVx x) →
      ∃ t, step s = .next t ∧ t.dt.toNat = (readReg s x).toNat - 1) ∧
    (cycleState s = .running → decodeWord (fetchWord s) = some (.ldStVx x) →
      ∃ t, step s = .next t ∧ t.st.toNat = (readReg s x).toNat - 1) ∧
    (∀ v : Byte, exec (.ldStVx x) { s with st := v } = exec (.ldStVx x) s) ∧
    (∀ (i : Instr) (v : Byte) (t : State), (∀ y, i ≠ .ldStVx y) → exec i s = .next t →
      exec i { s with st := v } = .next { t with st := v })

/-- R216: LD_VX_K sets `wait`, advances pc at once and writes no register. The cycle that executes it still ticks the
timers and leaves the core in AwaitingKey(x). With whatever key levels the host then sets, a cycle with no key down
changes nothing, and a cycle with a key down gives the least pressed key's index to Vx, ends the wait and changes nothing
else. -/
def Obligations.AwaitKeySuspendsUntilAKeyIsDown : Prop :=
  ∀ (x : RegIdx) (s : State),
    (∃ t, exec (.ldVxK x) s = .next t ∧ t.wait = some x ∧ t.pc = s.pc + 2#16 ∧ Frame { wait := true } s t) ∧
    (cycleState s = .running → decodeWord (fetchWord s) = some (.ldVxK x) →
      ∃ t, step s = .next t ∧ cycleState t = .awaitingKey x ∧ t.pc = s.pc + 2#16 ∧ t.regs = s.regs ∧
        t.dt.toNat = s.dt.toNat - 1 ∧ t.st.toNat = s.st.toNat - 1 ∧
        (∀ bits : BitVec 16,
          ((∀ k < 16, bits.getLsbD k = false) → step { t with keys := bits } = .next { t with keys := bits }) ∧
          (∀ k < 16, bits.getLsbD k = true → (∀ j < k, bits.getLsbD j = false) →
            step { t with keys := bits } =
              .next { t with keys := bits, wait := none, regs := t.regs.set x (BitVec.ofNat 8 k) })))

/-! ### Index register and memory -/

/-- R221: LD_I. -/
def Obligations.LoadIndexZeroExtends : Prop :=
  ∀ (nnn : Addr) (s : State), ∃ t, exec (.ldI nnn) s = .next t ∧ t.i.toNat = nnn.toNat ∧ t.pc = s.pc + 2#16 ∧
    Frame { index := true } s t

/-- R222: ADD_I is modulo 65536 (the spec's decision D20), is not reduced to 12 bits, and never touches VF. -/
def Obligations.AddIndexWrapsAt65536 : Prop :=
  ∀ (x : RegIdx) (s : State), ∃ t, exec (.addI x) s = .next t ∧
    t.i.toNat = (s.i.toNat + (readReg s x).toNat) % 65536 ∧ t.pc = s.pc + 2#16 ∧ Frame { index := true } s t

/-- R223: LD_F points I at FONT_BASE + Vx * 5, with no mask on Vx (FONT_BASE is the spec's decision D7; log 5). -/
def Obligations.FontIndexIsUnmasked : Prop :=
  ∀ (x : RegIdx) (s : State), ∃ t, exec (.ldF x) s = .next t ∧
    t.i.toNat = config.fontBase + (readReg s x).toNat * 5 ∧ t.pc = s.pc + 2#16 ∧ Frame { index := true } s t

/-- R224: LD_B stores the hundreds, tens and ones digits at I, I + 1 and I + 2, each address reduced modulo 4096 (D5), and
no other byte; I is not changed. -/
def Obligations.BcdStoresThreeDigits : Prop :=
  ∀ (x : RegIdx) (s : State), ∃ t, exec (.ldB x) s = .next t ∧
    (readByte t (s.i.toNat)).toNat = (readReg s x).toNat / 100 ∧
    (readByte t (s.i.toNat + 1)).toNat = (readReg s x).toNat / 10 % 10 ∧
    (readByte t (s.i.toNat + 2)).toNat = (readReg s x).toNat % 10 ∧
    t.pc = s.pc + 2#16 ∧ Frame { stores := indexedBytes s 3 } s t

/-- R225, R227: LD_MEM_VX stores V0 to Vx at ascending addresses from I, each reduced modulo 4096 (D5), and no other byte;
I advances by x + 1 modulo 65536 (D20). -/
def Obligations.DumpStoresRegistersUpToVx : Prop :=
  ∀ (x : RegIdx) (s : State), ∃ t, exec (.ldMemVx x) s = .next t ∧
    (∀ j : RegIdx, j ≤ x → readByte t (s.i.toNat + j.val) = readReg s j) ∧
    t.i.toNat = (s.i.toNat + x.val + 1) % 65536 ∧ t.pc = s.pc + 2#16 ∧
    Frame { index := true, stores := indexedBytes s (x.val + 1) } s t

/-- R226, R227: LD_VX_MEM loads V0 to Vx from ascending addresses from I, each reduced modulo 4096 (D5), and no other
register; memory is not changed; I advances by x + 1 modulo 65536 (D20). -/
def Obligations.LoadReadsRegistersUpToVx : Prop :=
  ∀ (x : RegIdx) (s : State), ∃ t, exec (.ldVxMem x) s = .next t ∧
    (∀ j : RegIdx, j ≤ x → readReg t j = readByte s (s.i.toNat + j.val)) ∧
    t.i.toNat = (s.i.toNat + x.val + 1) % 65536 ∧ t.pc = s.pc + 2#16 ∧
    Frame { regs := regsUpTo x, index := true } s t

/-- R24: no instruction writes I but LD_I, ADD_I, LD_F, LD_MEM_VX and LD_VX_MEM, and no cycle but a Running one that executes one of them. -/
def Obligations.OnlyFiveInstructionsWriteTheIndex : Prop :=
  ∀ s t, step s = .next t → t.i ≠ s.i → cycleState s = .running ∧ ∃ i, decodeWord (fetchWord s) = some i ∧
    ((∃ nnn, i = .ldI nnn) ∨ (∃ x, i = .addI x ∨ i = .ldF x ∨ i = .ldMemVx x ∨ i = .ldVxMem x))

/-- R66: no cycle changes a byte of memory but a Running one that executes LD_B or LD_MEM_VX. -/
def Obligations.OnlyBcdAndDumpWriteMemory : Prop :=
  ∀ (s t : State) (a : Nat), step s = .next t → readByte t a ≠ readByte s a →
    cycleState s = .running ∧ ∃ x, decodeWord (fetchWord s) = some (.ldB x) ∨ decodeWord (fetchWord s) = some (.ldMemVx x)

/-- R74, R278: a store is what the fetch of the next cycle sees: a dump to the word after itself makes V0 and V1 the next
opcode, with nothing to flush. -/
def Obligations.StoredWordIsFetchedNext : Prop :=
  ∀ (s : State) (x : RegIdx), cycleState s = .running → decodeWord (fetchWord s) = some (.ldMemVx x) → 1 ≤ x.val →
    s.i = s.pc + 2#16 →
    ∃ t, step s = .next t ∧ cycleState t = .running ∧ fetchWord t = readReg s 0 ++ readReg s 1

/-! ### Invariants -/

/-- Every step keeps the invariant `StateInv`: memory in canonical form, a true halt record with no pending wait (R41, R240,
R246), and `dirty` only in a Running state (R121). The record's form is the spec's decision D17. -/
def Obligations.EveryStepKeepsTheInvariant : Prop :=
  ∀ s t, StateInv s → step s = .next t → StateInv t

/-- The reset state meets the invariant `StateInv`. -/
def Obligations.ResetMeetsTheInvariant : Prop := StateInv State.reset

/-- Every move of the host keeps the invariant `StateInv` (R132 to R135; that load_program writes nothing but memory is the
spec's decision D24). -/
def Obligations.HostMovesKeepTheInvariant : Prop :=
  ∀ (mv : HostMove) (s : State), StateInv s → ∃ t, applyMove mv s = .next t ∧ StateInv t

/-- R26: pc and the return addresses stay even, as long as the jump, call or jump-with-offset that a Running cycle executes
has an even target; a cycle that executes nothing asks nothing (that nothing enforces it is the spec's decision D6). -/
def Obligations.EvenTargetsKeepPcEven : Prop :=
  ∀ s t, EvenCode s → step s = .next t →
    (∀ nnn, cycleState s = .running →
      decodeWord (fetchWord s) = some (.jp nnn) ∨ decodeWord (fetchWord s) = some (.call nnn) → nnn.toNat % 2 = 0) →
    (∀ nnn, cycleState s = .running → decodeWord (fetchWord s) = some (.jpV0 nnn) →
      (nnn.toNat + (readReg s 0).toNat) % 2 = 0) →
    EvenCode t

/-! ### The host -/

/-- R133, R77: load_program copies the bytes to 0x200 upward, drops those beyond 0xFFF, leaves every other byte, and
changes nothing but memory (the last is the spec's decision D24). -/
def Obligations.LoaderCopiesAndTruncates : Prop :=
  ∀ (bytes : List Byte) (s : State),
    (∀ a, a < 4096 → readByte (loadProgram bytes s) a =
      if 0x200 ≤ a ∧ a - 0x200 < bytes.length then bytes.getD (a - 0x200) 0x00 else readByte s a) ∧
    loadProgram bytes s = { s with mem := (loadProgram bytes s).mem }

/-- R134, R135: set_key writes one key, set_all_keys all sixteen (bit k is key k), and neither changes anything else (where
the latch lives and the bit order are the spec's decision D15). -/
def Obligations.HostKeyOperationsWriteTheLatch : Prop :=
  ∀ (k j : Fin 16) (pressed : Bool) (bits : BitVec 16) (s : State),
    keyDown (setKey k pressed s) j = (if j = k then pressed else keyDown s j) ∧
    keyDown (setAllKeys bits s) j = bits.getLsbD j ∧
    setKey k pressed s = { s with keys := (setKey k pressed s).keys } ∧
    setAllKeys bits s = { s with keys := (setAllKeys bits s).keys }

/-- R137: the display as a grid is `fb`; flattened it has 2048 bytes, and the byte at row * 64 + col is 1 where the pixel is
set and 0 where it is not; no move of the host but the reset writes `fb`. -/
def Obligations.FlattenedDisplayIsRowMajor : Prop :=
  ∀ s : State, readDisplay s = s.fb ∧ (readDisplayFlat s).length = 2048 ∧
    (∀ (row : Fin 32) (col : Fin 64),
      (readDisplayFlat s)[row.val * 64 + col.val]? = some (if pixelAt s.fb row col then 0x01 else 0x00)) ∧
    (∀ (mv : HostMove) (t : State), mv ≠ .reset → mv ≠ .runCycle → applyMove mv s = .next t → t.fb = s.fb)

/-- R141: a jump to itself leaves every piece of state but the timers fixed for ever (and `dirty` cleared); each cycle
ticks DT and ST down to 0. -/
def Obligations.SelfJumpOnlyTicksTheTimers : Prop :=
  ∀ (k : Nat) (s : State), AtSelfJump s →
    Host.Core.run Sys2Proof.core (k + 1) s = .next
      { s with dirty := false, dt := BitVec.ofNat 8 (s.dt.toNat - (k + 1)), st := BitVec.ofNat 8 (s.st.toNat - (k + 1)) }
end

