-- ==== Sys2Proof/Laws/Decode.lean ====
section
/-! SUPPORT. The fields of an encoded word, one lemma per format and field, and the fields that make up a word. -/

namespace Sys2Proof

@[simp] theorem regField_toFin (x : RegIdx) : (regField x).toFin = x := rfl

@[simp] theorem regField_toNat (x : RegIdx) : (regField x).toNat = x.val := rfl

/-- A format A word as a number. -/
theorem encodeA_toNat (g : Nibble) (nnn : Addr) : (encodeA g nnn).toNat = g.toNat * 4096 + nnn.toNat := by
  have hg := g.isLt
  have hn := nnn.isLt
  have hs : (g.zeroExtend 16 <<< 12 : Word).toNat = g.toNat <<< 12 := by
    simp [Nat.shiftLeft_eq]; omega
  rw [encodeA, BitVec.toNat_or, hs, BitVec.toNat_setWidth, Nat.mod_eq_of_lt (by omega),
    ← Nat.shiftLeft_add_eq_or_of_lt hn, Nat.shiftLeft_eq]

/-- A format XK (or XS) word as a number. -/
theorem encodeXK_toNat (g : Nibble) (x : RegIdx) (kk : Byte) :
    (encodeXK g x kk).toNat = g.toNat * 4096 + x.val * 256 + kk.toNat := by
  have hg := g.isLt
  have hx := x.isLt
  have hk := kk.isLt
  have hs : (g.zeroExtend 16 <<< 12 : Word).toNat = g.toNat <<< 12 := by
    simp [Nat.shiftLeft_eq]; omega
  have ht : ((regField x).zeroExtend 16 <<< 8 : Word).toNat = x.val <<< 8 := by
    simp [Nat.shiftLeft_eq]; omega
  rw [encodeXK, BitVec.toNat_or, BitVec.toNat_or, hs, ht, BitVec.toNat_setWidth, Nat.mod_eq_of_lt (by omega),
    Nat.lor_assoc, ← Nat.shiftLeft_add_eq_or_of_lt hk,
    ← Nat.shiftLeft_add_eq_or_of_lt (show x.val <<< 8 + kk.toNat < 2 ^ 12 by rw [Nat.shiftLeft_eq]; omega),
    Nat.shiftLeft_eq, Nat.shiftLeft_eq]
  omega

/-- A format XYN (or XY) word as a number. -/
theorem encodeXYN_toNat (g : Nibble) (x y : RegIdx) (n : Nibble) :
    (encodeXYN g x y n).toNat = g.toNat * 4096 + x.val * 256 + y.val * 16 + n.toNat := by
  have hg := g.isLt
  have hx := x.isLt
  have hy := y.isLt
  have hn := n.isLt
  have hs : (g.zeroExtend 16 <<< 12 : Word).toNat = g.toNat <<< 12 := by
    simp [Nat.shiftLeft_eq]; omega
  have ht : ((regField x).zeroExtend 16 <<< 8 : Word).toNat = x.val <<< 8 := by
    simp [Nat.shiftLeft_eq]; omega
  have hu : ((regField y).zeroExtend 16 <<< 4 : Word).toNat = y.val <<< 4 := by
    simp [Nat.shiftLeft_eq]; omega
  rw [encodeXYN, BitVec.toNat_or, BitVec.toNat_or, BitVec.toNat_or, hs, ht, hu, BitVec.toNat_setWidth,
    Nat.mod_eq_of_lt (by omega), Nat.lor_assoc, Nat.lor_assoc, ← Nat.shiftLeft_add_eq_or_of_lt hn,
    ← Nat.shiftLeft_add_eq_or_of_lt (show y.val <<< 4 + n.toNat < 2 ^ 8 by rw [Nat.shiftLeft_eq]; omega),
    ← Nat.shiftLeft_add_eq_or_of_lt
      (show x.val <<< 8 + (y.val <<< 4 + n.toNat) < 2 ^ 12 by rw [Nat.shiftLeft_eq, Nat.shiftLeft_eq]; omega),
    Nat.shiftLeft_eq, Nat.shiftLeft_eq, Nat.shiftLeft_eq]
  omega

/-! ### The fields of a word as numbers -/

theorem fieldG_toNat (op : Word) : (fieldG op).toNat = op.toNat / 4096 := by
  have := op.isLt
  simp [fieldG, BitVec.extractLsb'_toNat, Nat.shiftRight_eq_div_pow]; omega

theorem fieldX_val (op : Word) : (fieldX op).val = op.toNat / 256 % 16 := by
  change (op.extractLsb' 8 4).toNat = _
  simp [BitVec.extractLsb'_toNat, Nat.shiftRight_eq_div_pow]

theorem fieldY_val (op : Word) : (fieldY op).val = op.toNat / 16 % 16 := by
  change (op.extractLsb' 4 4).toNat = _
  simp [BitVec.extractLsb'_toNat, Nat.shiftRight_eq_div_pow]

theorem fieldN_toNat (op : Word) : (fieldN op).toNat = op.toNat % 16 := by
  simp [fieldN, BitVec.extractLsb'_toNat]

theorem fieldKK_toNat (op : Word) : (fieldKK op).toNat = op.toNat % 256 := by
  simp [fieldKK, BitVec.extractLsb'_toNat]

theorem fieldNNN_toNat (op : Word) : (fieldNNN op).toNat = op.toNat % 4096 := by
  simp [fieldNNN, BitVec.extractLsb'_toNat]

/-! ### The fields of an encoded word -/

theorem fieldG_encodeA (g : Nibble) (nnn : Addr) : fieldG (encodeA g nnn) = g := by
  have := nnn.isLt
  apply BitVec.eq_of_toNat_eq
  rw [fieldG_toNat, encodeA_toNat]; omega

theorem fieldNNN_encodeA (g : Nibble) (nnn : Addr) : fieldNNN (encodeA g nnn) = nnn := by
  have := nnn.isLt
  apply BitVec.eq_of_toNat_eq
  rw [fieldNNN_toNat, encodeA_toNat]; omega

theorem fieldG_encodeXK (g : Nibble) (x : RegIdx) (kk : Byte) : fieldG (encodeXK g x kk) = g := by
  have := kk.isLt
  have := x.isLt
  apply BitVec.eq_of_toNat_eq
  rw [fieldG_toNat, encodeXK_toNat]; omega

theorem fieldX_encodeXK (g : Nibble) (x : RegIdx) (kk : Byte) : fieldX (encodeXK g x kk) = x := by
  have := kk.isLt
  have := x.isLt
  apply Fin.ext
  rw [fieldX_val, encodeXK_toNat]; omega

theorem fieldKK_encodeXK (g : Nibble) (x : RegIdx) (kk : Byte) : fieldKK (encodeXK g x kk) = kk := by
  have := kk.isLt
  apply BitVec.eq_of_toNat_eq
  rw [fieldKK_toNat, encodeXK_toNat]; omega

theorem fieldG_encodeXYN (g : Nibble) (x y : RegIdx) (n : Nibble) : fieldG (encodeXYN g x y n) = g := by
  have := n.isLt
  have := x.isLt
  have := y.isLt
  apply BitVec.eq_of_toNat_eq
  rw [fieldG_toNat, encodeXYN_toNat]; omega

theorem fieldX_encodeXYN (g : Nibble) (x y : RegIdx) (n : Nibble) : fieldX (encodeXYN g x y n) = x := by
  have := n.isLt
  have := x.isLt
  have := y.isLt
  apply Fin.ext
  rw [fieldX_val, encodeXYN_toNat]; omega

theorem fieldY_encodeXYN (g : Nibble) (x y : RegIdx) (n : Nibble) : fieldY (encodeXYN g x y n) = y := by
  have := n.isLt
  have := y.isLt
  apply Fin.ext
  rw [fieldY_val, encodeXYN_toNat]; omega

theorem fieldN_encodeXYN (g : Nibble) (x y : RegIdx) (n : Nibble) : fieldN (encodeXYN g x y n) = n := by
  have := n.isLt
  apply BitVec.eq_of_toNat_eq
  rw [fieldN_toNat, encodeXYN_toNat]; omega

/-! ### A word made of its fields -/

theorem encodeA_fields (op : Word) : encodeA (fieldG op) (fieldNNN op) = op := by
  apply BitVec.eq_of_toNat_eq
  rw [encodeA_toNat, fieldG_toNat, fieldNNN_toNat]; omega

theorem encodeXK_fields (op : Word) : encodeXK (fieldG op) (fieldX op) (fieldKK op) = op := by
  apply BitVec.eq_of_toNat_eq
  rw [encodeXK_toNat, fieldG_toNat, fieldX_val, fieldKK_toNat]; omega

theorem encodeXYN_fields (op : Word) : encodeXYN (fieldG op) (fieldX op) (fieldY op) (fieldN op) = op := by
  apply BitVec.eq_of_toNat_eq
  rw [encodeXYN_toNat, fieldG_toNat, fieldX_val, fieldY_val, fieldN_toNat]; omega

/-- Two bytes as a word, the first high (R63). -/
theorem wordOfBytes_toNat (hi lo : Byte) : (wordOfBytes hi lo).toNat = hi.toNat * 256 + lo.toNat := by
  change (hi ++ lo : BitVec (8 + 8)).toNat = _
  rw [BitVec.toNat_append, ← Nat.shiftLeft_add_eq_or_of_lt lo.isLt, Nat.shiftLeft_eq]

theorem highByte_toNat (op : Word) : (highByte op).toNat = op.toNat / 256 := by
  have := op.isLt
  simp [highByte, BitVec.extractLsb'_toNat, Nat.shiftRight_eq_div_pow]; omega

theorem lowByte_toNat (op : Word) : (lowByte op).toNat = op.toNat % 256 := by
  simp [lowByte, BitVec.extractLsb'_toNat]

/-- The bytes of a word, put together, are the word (R63). -/
theorem wordOfBytes_bytes (op : Word) : wordOfBytes (highByte op) (lowByte op) = op := by
  apply BitVec.eq_of_toNat_eq
  rw [wordOfBytes_toNat, highByte_toNat, lowByte_toNat]; omega

/-! ### The masks of the opcode table (R94) -/

/-- The mask of a format A, XK or XYN row keeps the group. -/
theorem and_maskG (op : Word) : op &&& 0xF000#16 = encodeA (fieldG op) 0#12 := by
  apply BitVec.eq_of_getLsbD_eq
  intro i hi
  interval_cases i <;> simp [encodeA, fieldG]

/-- The mask of a format XY row keeps the group and `n`. -/
theorem and_maskGN (op : Word) : op &&& 0xF00F#16 = encodeXYN (fieldG op) 0 0 (fieldN op) := by
  apply BitVec.eq_of_getLsbD_eq
  intro i hi
  interval_cases i <;> simp [encodeXYN, fieldG, fieldN, regField]

/-- The mask of a format XS row keeps the group and `kk`. -/
theorem and_maskGKK (op : Word) : op &&& 0xF0FF#16 = encodeXK (fieldG op) 0 (fieldKK op) := by
  apply BitVec.eq_of_getLsbD_eq
  intro i hi
  interval_cases i <;> simp [encodeXK, fieldG, fieldKK, regField]

end Sys2Proof
end

