-- ==== Sys2Proof/Laws/Memory.lean ====
section
/-! SUPPORT. Memory: a read after a write, and the canonical form kept by every operation. -/

namespace Sys2Proof.Machine

/-! ### Addresses -/

/-- The spec's reduction, modulo 4096 (R62, D5): the one place that unfolds the configuration's choice. -/
theorem effAddr_eq (a : Nat) : effAddr a = a % 4096 := rfl

theorem effAddr_lt (a : Nat) : effAddr a < Config.memSize := Nat.mod_lt _ (by decide)

theorem effAddr_of_lt {a : Nat} (h : a < 4096) : effAddr a = a := Nat.mod_eq_of_lt h

/-! ### The reset contents -/

/-- Past the font every byte is 0x00 at reset, whatever the configuration (R29). -/
theorem resetByte_past_font {a : Nat} (h : config.fontBase + Config.fontSize ≤ a) : resetByte a = 0x00#8 := by
  have hl := config.fontTable_length
  unfold resetByte
  split
  · rw [List.getD_eq_getElem?_getD, List.getElem?_eq_none (by omega), Option.getD_none]
  · rfl

/-- Every byte from PROGRAM_ORIGIN up is 0x00 at reset: R6's constraint on FONT_BASE. -/
theorem resetByte_program {a : Nat} (h : Config.programOrigin ≤ a) : resetByte a = 0x00#8 :=
  resetByte_past_font (Nat.le_trans config.fontBase_fits h)

/-! ### Reads -/

@[simp] theorem Memory.read_nil (a : Nat) : Memory.read [] a = resetByte a := rfl

theorem Memory.read_cons (c : Host.Cell) (m : Memory) (a : Nat) :
    Memory.read (c :: m) a = if c.1 = a then c.2 else Memory.read m a := by
  cases c; rfl

theorem Memory.read_erase_self (m : Memory) (a : Nat) : Memory.read (Memory.erase m a) a = resetByte a := by
  induction m with
  | nil => rfl
  | cons c m ih =>
    by_cases h : c.1 = a
    · simpa [Memory.erase, h] using ih
    · simpa [Memory.erase, h, Memory.read_cons] using ih

theorem Memory.read_erase_of_ne (m : Memory) {a b : Nat} (h : b ≠ a) :
    Memory.read (Memory.erase m a) b = Memory.read m b := by
  induction m with
  | nil => rfl
  | cons c m ih =>
    have ih' : Memory.read (List.filter (fun c => c.1 != a) m) b = Memory.read m b := ih
    by_cases hc : c.1 = a
    · have hb : c.1 ≠ b := fun e => h (e.symm.trans hc)
      rw [Memory.erase, List.filter_cons_of_neg (by simp [hc]), Memory.read_cons, if_neg hb, ih']
    · rw [Memory.erase, List.filter_cons_of_pos (by simp [hc]), Memory.read_cons, Memory.read_cons, ih']

theorem Memory.read_insert_self (m : Memory) (a : Nat) (v : Byte) (h : ∀ c ∈ m, c.1 ≠ a) :
    Memory.read (Memory.insert m a v) a = v := by
  induction m with
  | nil => simp [Memory.insert, Memory.read_cons]
  | cons c m ih =>
    have hc : c.1 ≠ a := h c (List.mem_cons_self ..)
    have hm := ih (fun d hd => h d (List.mem_cons_of_mem _ hd))
    unfold Memory.insert
    split <;> simp [Memory.read_cons, hc, hm]

theorem Memory.read_insert_of_ne (m : Memory) {a b : Nat} (v : Byte) (h : b ≠ a) :
    Memory.read (Memory.insert m a v) b = Memory.read m b := by
  induction m with
  | nil => simp [Memory.insert, Memory.read_cons, h.symm]
  | cons c m ih =>
    unfold Memory.insert
    split <;> simp [Memory.read_cons, h.symm, ih]

/-- The erased cells are gone. -/
theorem Memory.erase_ne (m : Memory) (a : Nat) : ∀ c ∈ Memory.erase m a, c.1 ≠ a := by
  intro c hc
  simpa using (List.mem_filter.mp hc).2

/-- A read after a write, at every index: the value written there, what was there elsewhere. -/
theorem Memory.read_write (m : Memory) (a b : Nat) (v : Byte) :
    Memory.read (Memory.write m a v) b = if b = a then v else Memory.read m b := by
  unfold Memory.write
  by_cases hb : b = a
  · subst hb
    split
    · next hv => simp [Memory.read_erase_self, hv]
    · simp [Memory.read_insert_self _ _ _ (Memory.erase_ne m b)]
  · rw [if_neg hb]
    split <;> simp [Memory.read_insert_of_ne _ _ hb, Memory.read_erase_of_ne _ hb]

/-! ### The canonical form -/

theorem Memory.wf_iff (m : Memory) :
    Memory.wf m = true ↔ m.Pairwise (fun c d => c.1 < d.1) ∧
      ∀ c ∈ m, c.1 < Config.memSize ∧ c.2 ≠ resetByte c.1 := by
  simp [Memory.wf]

theorem Memory.mem_insert {m : Memory} {a : Nat} {v : Byte} {c : Host.Cell} :
    c ∈ Memory.insert m a v ↔ c = (a, v) ∨ c ∈ m := by
  induction m with
  | nil => simp [Memory.insert]
  | cons d m ih =>
    unfold Memory.insert
    split
    · simp
    · simp [ih, or_left_comm]

theorem Memory.insert_pairwise {m : Memory} {a : Nat} {v : Byte} (hm : m.Pairwise (fun c d => c.1 < d.1))
    (hne : ∀ c ∈ m, c.1 ≠ a) : (Memory.insert m a v).Pairwise (fun c d => c.1 < d.1) := by
  induction m with
  | nil => simp [Memory.insert]
  | cons d m ih =>
    obtain ⟨hd, hm'⟩ := List.pairwise_cons.mp hm
    have hda : d.1 ≠ a := hne d (List.mem_cons_self ..)
    unfold Memory.insert
    split
    · next hlt =>
      refine List.pairwise_cons.mpr ⟨?_, hm⟩
      intro c hc
      rcases List.mem_cons.mp hc with rfl | hc
      · exact hlt
      · exact Nat.lt_trans hlt (hd c hc)
    · next hge =>
      refine List.pairwise_cons.mpr ⟨?_, ih hm' (fun c hc => hne c (List.mem_cons_of_mem _ hc))⟩
      intro c hc
      rcases Memory.mem_insert.mp hc with rfl | hc
      · exact Nat.lt_of_le_of_ne (Nat.le_of_not_lt hge) hda
      · exact hd c hc

/-- The write of a byte at an index below 4096 keeps the canonical form. -/
theorem Memory.wf_write {m : Memory} {a : Nat} (v : Byte) (ha : a < Config.memSize) (h : Memory.wf m = true) :
    Memory.wf (Memory.write m a v) = true := by
  obtain ⟨hp, hc⟩ := (Memory.wf_iff m).mp h
  have hp' : (Memory.erase m a).Pairwise (fun c d => c.1 < d.1) := hp.filter _
  have hc' : ∀ c ∈ Memory.erase m a, c.1 < Config.memSize ∧ c.2 ≠ resetByte c.1 :=
    fun c hm => hc c (List.mem_filter.mp hm).1
  rw [Memory.wf_iff]
  unfold Memory.write
  split
  · exact ⟨hp', hc'⟩
  · next hv =>
    refine ⟨Memory.insert_pairwise hp' (Memory.erase_ne m a), fun c hm => ?_⟩
    rcases Memory.mem_insert.mp hm with rfl | hm
    · exact ⟨ha, hv⟩
    · exact hc' c hm

theorem Memory.wf_nil : Memory.wf [] = true := by decide

/-! ### The access primitives of R62 -/

/-- A byte read after a byte written: the value where the reduced addresses agree, what was there elsewhere. -/
theorem memRead_memWrite (m : Memory) (a b : Nat) (v : Byte) :
    memRead (memWrite m a v) b = if effAddr b = effAddr a then v else memRead m b :=
  Memory.read_write m (effAddr a) (effAddr b) v

theorem memWrite_wf {m : Memory} (a : Nat) (v : Byte) (h : Memory.wf m = true) :
    Memory.wf (memWrite m a v) = true :=
  Memory.wf_write v (effAddr_lt a) h

end Sys2Proof.Machine
end

