-- ==== Sys2Proof/Laws/State.lean ====
section
/-! SUPPORT. One lemma per field per update of the state, each true by unfolding the update once. -/

namespace Sys2Proof.Machine

section setRegs
variable (s : State) (v : Vector Byte 16)

@[simp] theorem State.setRegs_regs : (s.setRegs v).regs = v := rfl
@[simp] theorem State.setRegs_i : (s.setRegs v).i = s.i := rfl
@[simp] theorem State.setRegs_pc : (s.setRegs v).pc = s.pc := rfl
@[simp] theorem State.setRegs_sp : (s.setRegs v).sp = s.sp := rfl
@[simp] theorem State.setRegs_stack : (s.setRegs v).stack = s.stack := rfl
@[simp] theorem State.setRegs_mem : (s.setRegs v).mem = s.mem := rfl
@[simp] theorem State.setRegs_fb : (s.setRegs v).fb = s.fb := rfl
@[simp] theorem State.setRegs_dt : (s.setRegs v).dt = s.dt := rfl
@[simp] theorem State.setRegs_st : (s.setRegs v).st = s.st := rfl
@[simp] theorem State.setRegs_keys : (s.setRegs v).keys = s.keys := rfl
@[simp] theorem State.setRegs_wait : (s.setRegs v).wait = s.wait := rfl
@[simp] theorem State.setRegs_dirty : (s.setRegs v).dirty = s.dirty := rfl
@[simp] theorem State.setRegs_halt : (s.setRegs v).halt = s.halt := rfl
@[simp] theorem State.setRegs_draws : (s.setRegs v).draws = s.draws := rfl

end setRegs

section setI
variable (s : State) (v : Word)

@[simp] theorem State.setI_regs : (s.setI v).regs = s.regs := rfl
@[simp] theorem State.setI_i : (s.setI v).i = v := rfl
@[simp] theorem State.setI_pc : (s.setI v).pc = s.pc := rfl
@[simp] theorem State.setI_sp : (s.setI v).sp = s.sp := rfl
@[simp] theorem State.setI_stack : (s.setI v).stack = s.stack := rfl
@[simp] theorem State.setI_mem : (s.setI v).mem = s.mem := rfl
@[simp] theorem State.setI_fb : (s.setI v).fb = s.fb := rfl
@[simp] theorem State.setI_dt : (s.setI v).dt = s.dt := rfl
@[simp] theorem State.setI_st : (s.setI v).st = s.st := rfl
@[simp] theorem State.setI_keys : (s.setI v).keys = s.keys := rfl
@[simp] theorem State.setI_wait : (s.setI v).wait = s.wait := rfl
@[simp] theorem State.setI_dirty : (s.setI v).dirty = s.dirty := rfl
@[simp] theorem State.setI_halt : (s.setI v).halt = s.halt := rfl
@[simp] theorem State.setI_draws : (s.setI v).draws = s.draws := rfl

end setI

section setPc
variable (s : State) (v : Word)

@[simp] theorem State.setPc_regs : (s.setPc v).regs = s.regs := rfl
@[simp] theorem State.setPc_i : (s.setPc v).i = s.i := rfl
@[simp] theorem State.setPc_pc : (s.setPc v).pc = v := rfl
@[simp] theorem State.setPc_sp : (s.setPc v).sp = s.sp := rfl
@[simp] theorem State.setPc_stack : (s.setPc v).stack = s.stack := rfl
@[simp] theorem State.setPc_mem : (s.setPc v).mem = s.mem := rfl
@[simp] theorem State.setPc_fb : (s.setPc v).fb = s.fb := rfl
@[simp] theorem State.setPc_dt : (s.setPc v).dt = s.dt := rfl
@[simp] theorem State.setPc_st : (s.setPc v).st = s.st := rfl
@[simp] theorem State.setPc_keys : (s.setPc v).keys = s.keys := rfl
@[simp] theorem State.setPc_wait : (s.setPc v).wait = s.wait := rfl
@[simp] theorem State.setPc_dirty : (s.setPc v).dirty = s.dirty := rfl
@[simp] theorem State.setPc_halt : (s.setPc v).halt = s.halt := rfl
@[simp] theorem State.setPc_draws : (s.setPc v).draws = s.draws := rfl

end setPc

section setSp
variable (s : State) (v : Fin 17)

@[simp] theorem State.setSp_regs : (s.setSp v).regs = s.regs := rfl
@[simp] theorem State.setSp_i : (s.setSp v).i = s.i := rfl
@[simp] theorem State.setSp_pc : (s.setSp v).pc = s.pc := rfl
@[simp] theorem State.setSp_sp : (s.setSp v).sp = v := rfl
@[simp] theorem State.setSp_stack : (s.setSp v).stack = s.stack := rfl
@[simp] theorem State.setSp_mem : (s.setSp v).mem = s.mem := rfl
@[simp] theorem State.setSp_fb : (s.setSp v).fb = s.fb := rfl
@[simp] theorem State.setSp_dt : (s.setSp v).dt = s.dt := rfl
@[simp] theorem State.setSp_st : (s.setSp v).st = s.st := rfl
@[simp] theorem State.setSp_keys : (s.setSp v).keys = s.keys := rfl
@[simp] theorem State.setSp_wait : (s.setSp v).wait = s.wait := rfl
@[simp] theorem State.setSp_dirty : (s.setSp v).dirty = s.dirty := rfl
@[simp] theorem State.setSp_halt : (s.setSp v).halt = s.halt := rfl
@[simp] theorem State.setSp_draws : (s.setSp v).draws = s.draws := rfl

end setSp

section setStack
variable (s : State) (v : Vector Word 16)

@[simp] theorem State.setStack_regs : (s.setStack v).regs = s.regs := rfl
@[simp] theorem State.setStack_i : (s.setStack v).i = s.i := rfl
@[simp] theorem State.setStack_pc : (s.setStack v).pc = s.pc := rfl
@[simp] theorem State.setStack_sp : (s.setStack v).sp = s.sp := rfl
@[simp] theorem State.setStack_stack : (s.setStack v).stack = v := rfl
@[simp] theorem State.setStack_mem : (s.setStack v).mem = s.mem := rfl
@[simp] theorem State.setStack_fb : (s.setStack v).fb = s.fb := rfl
@[simp] theorem State.setStack_dt : (s.setStack v).dt = s.dt := rfl
@[simp] theorem State.setStack_st : (s.setStack v).st = s.st := rfl
@[simp] theorem State.setStack_keys : (s.setStack v).keys = s.keys := rfl
@[simp] theorem State.setStack_wait : (s.setStack v).wait = s.wait := rfl
@[simp] theorem State.setStack_dirty : (s.setStack v).dirty = s.dirty := rfl
@[simp] theorem State.setStack_halt : (s.setStack v).halt = s.halt := rfl
@[simp] theorem State.setStack_draws : (s.setStack v).draws = s.draws := rfl

end setStack

section setMem
variable (s : State) (v : Memory)

@[simp] theorem State.setMem_regs : (s.setMem v).regs = s.regs := rfl
@[simp] theorem State.setMem_i : (s.setMem v).i = s.i := rfl
@[simp] theorem State.setMem_pc : (s.setMem v).pc = s.pc := rfl
@[simp] theorem State.setMem_sp : (s.setMem v).sp = s.sp := rfl
@[simp] theorem State.setMem_stack : (s.setMem v).stack = s.stack := rfl
@[simp] theorem State.setMem_mem : (s.setMem v).mem = v := rfl
@[simp] theorem State.setMem_fb : (s.setMem v).fb = s.fb := rfl
@[simp] theorem State.setMem_dt : (s.setMem v).dt = s.dt := rfl
@[simp] theorem State.setMem_st : (s.setMem v).st = s.st := rfl
@[simp] theorem State.setMem_keys : (s.setMem v).keys = s.keys := rfl
@[simp] theorem State.setMem_wait : (s.setMem v).wait = s.wait := rfl
@[simp] theorem State.setMem_dirty : (s.setMem v).dirty = s.dirty := rfl
@[simp] theorem State.setMem_halt : (s.setMem v).halt = s.halt := rfl
@[simp] theorem State.setMem_draws : (s.setMem v).draws = s.draws := rfl

end setMem

section setFb
variable (s : State) (v : Display)

@[simp] theorem State.setFb_regs : (s.setFb v).regs = s.regs := rfl
@[simp] theorem State.setFb_i : (s.setFb v).i = s.i := rfl
@[simp] theorem State.setFb_pc : (s.setFb v).pc = s.pc := rfl
@[simp] theorem State.setFb_sp : (s.setFb v).sp = s.sp := rfl
@[simp] theorem State.setFb_stack : (s.setFb v).stack = s.stack := rfl
@[simp] theorem State.setFb_mem : (s.setFb v).mem = s.mem := rfl
@[simp] theorem State.setFb_fb : (s.setFb v).fb = v := rfl
@[simp] theorem State.setFb_dt : (s.setFb v).dt = s.dt := rfl
@[simp] theorem State.setFb_st : (s.setFb v).st = s.st := rfl
@[simp] theorem State.setFb_keys : (s.setFb v).keys = s.keys := rfl
@[simp] theorem State.setFb_wait : (s.setFb v).wait = s.wait := rfl
@[simp] theorem State.setFb_dirty : (s.setFb v).dirty = s.dirty := rfl
@[simp] theorem State.setFb_halt : (s.setFb v).halt = s.halt := rfl
@[simp] theorem State.setFb_draws : (s.setFb v).draws = s.draws := rfl

end setFb

section setDt
variable (s : State) (v : Byte)

@[simp] theorem State.setDt_regs : (s.setDt v).regs = s.regs := rfl
@[simp] theorem State.setDt_i : (s.setDt v).i = s.i := rfl
@[simp] theorem State.setDt_pc : (s.setDt v).pc = s.pc := rfl
@[simp] theorem State.setDt_sp : (s.setDt v).sp = s.sp := rfl
@[simp] theorem State.setDt_stack : (s.setDt v).stack = s.stack := rfl
@[simp] theorem State.setDt_mem : (s.setDt v).mem = s.mem := rfl
@[simp] theorem State.setDt_fb : (s.setDt v).fb = s.fb := rfl
@[simp] theorem State.setDt_dt : (s.setDt v).dt = v := rfl
@[simp] theorem State.setDt_st : (s.setDt v).st = s.st := rfl
@[simp] theorem State.setDt_keys : (s.setDt v).keys = s.keys := rfl
@[simp] theorem State.setDt_wait : (s.setDt v).wait = s.wait := rfl
@[simp] theorem State.setDt_dirty : (s.setDt v).dirty = s.dirty := rfl
@[simp] theorem State.setDt_halt : (s.setDt v).halt = s.halt := rfl
@[simp] theorem State.setDt_draws : (s.setDt v).draws = s.draws := rfl

end setDt

section setSt
variable (s : State) (v : Byte)

@[simp] theorem State.setSt_regs : (s.setSt v).regs = s.regs := rfl
@[simp] theorem State.setSt_i : (s.setSt v).i = s.i := rfl
@[simp] theorem State.setSt_pc : (s.setSt v).pc = s.pc := rfl
@[simp] theorem State.setSt_sp : (s.setSt v).sp = s.sp := rfl
@[simp] theorem State.setSt_stack : (s.setSt v).stack = s.stack := rfl
@[simp] theorem State.setSt_mem : (s.setSt v).mem = s.mem := rfl
@[simp] theorem State.setSt_fb : (s.setSt v).fb = s.fb := rfl
@[simp] theorem State.setSt_dt : (s.setSt v).dt = s.dt := rfl
@[simp] theorem State.setSt_st : (s.setSt v).st = v := rfl
@[simp] theorem State.setSt_keys : (s.setSt v).keys = s.keys := rfl
@[simp] theorem State.setSt_wait : (s.setSt v).wait = s.wait := rfl
@[simp] theorem State.setSt_dirty : (s.setSt v).dirty = s.dirty := rfl
@[simp] theorem State.setSt_halt : (s.setSt v).halt = s.halt := rfl
@[simp] theorem State.setSt_draws : (s.setSt v).draws = s.draws := rfl

end setSt

section setKeys
variable (s : State) (v : BitVec 16)

@[simp] theorem State.setKeys_regs : (s.setKeys v).regs = s.regs := rfl
@[simp] theorem State.setKeys_i : (s.setKeys v).i = s.i := rfl
@[simp] theorem State.setKeys_pc : (s.setKeys v).pc = s.pc := rfl
@[simp] theorem State.setKeys_sp : (s.setKeys v).sp = s.sp := rfl
@[simp] theorem State.setKeys_stack : (s.setKeys v).stack = s.stack := rfl
@[simp] theorem State.setKeys_mem : (s.setKeys v).mem = s.mem := rfl
@[simp] theorem State.setKeys_fb : (s.setKeys v).fb = s.fb := rfl
@[simp] theorem State.setKeys_dt : (s.setKeys v).dt = s.dt := rfl
@[simp] theorem State.setKeys_st : (s.setKeys v).st = s.st := rfl
@[simp] theorem State.setKeys_keys : (s.setKeys v).keys = v := rfl
@[simp] theorem State.setKeys_wait : (s.setKeys v).wait = s.wait := rfl
@[simp] theorem State.setKeys_dirty : (s.setKeys v).dirty = s.dirty := rfl
@[simp] theorem State.setKeys_halt : (s.setKeys v).halt = s.halt := rfl
@[simp] theorem State.setKeys_draws : (s.setKeys v).draws = s.draws := rfl

end setKeys

section setWait
variable (s : State) (v : Option RegIdx)

@[simp] theorem State.setWait_regs : (s.setWait v).regs = s.regs := rfl
@[simp] theorem State.setWait_i : (s.setWait v).i = s.i := rfl
@[simp] theorem State.setWait_pc : (s.setWait v).pc = s.pc := rfl
@[simp] theorem State.setWait_sp : (s.setWait v).sp = s.sp := rfl
@[simp] theorem State.setWait_stack : (s.setWait v).stack = s.stack := rfl
@[simp] theorem State.setWait_mem : (s.setWait v).mem = s.mem := rfl
@[simp] theorem State.setWait_fb : (s.setWait v).fb = s.fb := rfl
@[simp] theorem State.setWait_dt : (s.setWait v).dt = s.dt := rfl
@[simp] theorem State.setWait_st : (s.setWait v).st = s.st := rfl
@[simp] theorem State.setWait_keys : (s.setWait v).keys = s.keys := rfl
@[simp] theorem State.setWait_wait : (s.setWait v).wait = v := rfl
@[simp] theorem State.setWait_dirty : (s.setWait v).dirty = s.dirty := rfl
@[simp] theorem State.setWait_halt : (s.setWait v).halt = s.halt := rfl
@[simp] theorem State.setWait_draws : (s.setWait v).draws = s.draws := rfl

end setWait

section setDirty
variable (s : State) (v : Bool)

@[simp] theorem State.setDirty_regs : (s.setDirty v).regs = s.regs := rfl
@[simp] theorem State.setDirty_i : (s.setDirty v).i = s.i := rfl
@[simp] theorem State.setDirty_pc : (s.setDirty v).pc = s.pc := rfl
@[simp] theorem State.setDirty_sp : (s.setDirty v).sp = s.sp := rfl
@[simp] theorem State.setDirty_stack : (s.setDirty v).stack = s.stack := rfl
@[simp] theorem State.setDirty_mem : (s.setDirty v).mem = s.mem := rfl
@[simp] theorem State.setDirty_fb : (s.setDirty v).fb = s.fb := rfl
@[simp] theorem State.setDirty_dt : (s.setDirty v).dt = s.dt := rfl
@[simp] theorem State.setDirty_st : (s.setDirty v).st = s.st := rfl
@[simp] theorem State.setDirty_keys : (s.setDirty v).keys = s.keys := rfl
@[simp] theorem State.setDirty_wait : (s.setDirty v).wait = s.wait := rfl
@[simp] theorem State.setDirty_dirty : (s.setDirty v).dirty = v := rfl
@[simp] theorem State.setDirty_halt : (s.setDirty v).halt = s.halt := rfl
@[simp] theorem State.setDirty_draws : (s.setDirty v).draws = s.draws := rfl

end setDirty

section setHalt
variable (s : State) (v : Option HaltRecord)

@[simp] theorem State.setHalt_regs : (s.setHalt v).regs = s.regs := rfl
@[simp] theorem State.setHalt_i : (s.setHalt v).i = s.i := rfl
@[simp] theorem State.setHalt_pc : (s.setHalt v).pc = s.pc := rfl
@[simp] theorem State.setHalt_sp : (s.setHalt v).sp = s.sp := rfl
@[simp] theorem State.setHalt_stack : (s.setHalt v).stack = s.stack := rfl
@[simp] theorem State.setHalt_mem : (s.setHalt v).mem = s.mem := rfl
@[simp] theorem State.setHalt_fb : (s.setHalt v).fb = s.fb := rfl
@[simp] theorem State.setHalt_dt : (s.setHalt v).dt = s.dt := rfl
@[simp] theorem State.setHalt_st : (s.setHalt v).st = s.st := rfl
@[simp] theorem State.setHalt_keys : (s.setHalt v).keys = s.keys := rfl
@[simp] theorem State.setHalt_wait : (s.setHalt v).wait = s.wait := rfl
@[simp] theorem State.setHalt_dirty : (s.setHalt v).dirty = s.dirty := rfl
@[simp] theorem State.setHalt_halt : (s.setHalt v).halt = v := rfl
@[simp] theorem State.setHalt_draws : (s.setHalt v).draws = s.draws := rfl

end setHalt

section setDraws
variable (s : State) (v : Nat)

@[simp] theorem State.setDraws_regs : (s.setDraws v).regs = s.regs := rfl
@[simp] theorem State.setDraws_i : (s.setDraws v).i = s.i := rfl
@[simp] theorem State.setDraws_pc : (s.setDraws v).pc = s.pc := rfl
@[simp] theorem State.setDraws_sp : (s.setDraws v).sp = s.sp := rfl
@[simp] theorem State.setDraws_stack : (s.setDraws v).stack = s.stack := rfl
@[simp] theorem State.setDraws_mem : (s.setDraws v).mem = s.mem := rfl
@[simp] theorem State.setDraws_fb : (s.setDraws v).fb = s.fb := rfl
@[simp] theorem State.setDraws_dt : (s.setDraws v).dt = s.dt := rfl
@[simp] theorem State.setDraws_st : (s.setDraws v).st = s.st := rfl
@[simp] theorem State.setDraws_keys : (s.setDraws v).keys = s.keys := rfl
@[simp] theorem State.setDraws_wait : (s.setDraws v).wait = s.wait := rfl
@[simp] theorem State.setDraws_dirty : (s.setDraws v).dirty = s.dirty := rfl
@[simp] theorem State.setDraws_halt : (s.setDraws v).halt = s.halt := rfl
@[simp] theorem State.setDraws_draws : (s.setDraws v).draws = v := rfl

end setDraws

end Sys2Proof.Machine
end

