-- ==== Sys2Proof/Laws/Ops.lean ====
section
/-! SUPPORT. One lemma per shared operation: everything it can do. -/

namespace Sys2Proof.Machine

/-! ### Registers -/

/-- `V[q]` after `V[r] <- v`. -/
theorem readReg_writeReg (s : State) (r q : RegIdx) (v : Byte) :
    readReg (writeReg s r v) q = if q = r then v else readReg s q := by
  simp [readReg, writeReg, Vector.getElem_set, Fin.ext_iff, eq_comm]

@[simp] theorem readReg_writeReg_self (s : State) (r : RegIdx) (v : Byte) : readReg (writeReg s r v) r = v := by
  simp [readReg_writeReg]

theorem readReg_writeReg_of_ne (s : State) {r q : RegIdx} (v : Byte) (h : q ≠ r) :
    readReg (writeReg s r v) q = readReg s q := by
  simp [readReg_writeReg, h]

/-- A register write changes the register file only. -/
theorem writeReg_eq (s : State) (r : RegIdx) (v : Byte) : writeReg s r v = { s with regs := s.regs.set r v } := rfl

/-- VF after a result and a flag: the flag (R193). -/
theorem readReg_writeResultFlag (s : State) (x q : RegIdx) (v : Byte) (b : Bool) :
    readReg (writeResultFlag s x v b) q =
      if q = 15 then (if b then 0x01#8 else 0x00#8) else if q = x then v else readReg s q := by
  simp [writeResultFlag, writeFlag, readReg_writeReg, Config.flagReg]

/-- A result and a flag change the register file only. -/
theorem writeResultFlag_eq (s : State) (x : RegIdx) (v : Byte) (b : Bool) :
    writeResultFlag s x v b =
      { s with regs := (s.regs.set x v).set 15 (if b then 0x01#8 else 0x00#8) } := rfl

/-! ### Program counter -/

theorem next_eq (s : State) : next s = { s with pc := s.pc + 2#16 } := rfl

theorem skip_eq (s : State) : skip s = { s with pc := s.pc + 4#16 } := rfl

/-- A skip changes pc only, by one or two instruction widths (R160). -/
theorem skipIf_eq (c : Bool) (s : State) : skipIf c s = { s with pc := s.pc + if c then 4#16 else 2#16 } := by
  cases c <;> rfl

/-! ### Memory -/

theorem readByte_writeByte (s : State) (a b : Nat) (v : Byte) :
    readByte (writeByte s a v) b = if effAddr b = effAddr a then v else readByte s b :=
  memRead_memWrite s.mem a b v

/-- A sequence of stores keeps the canonical form. -/
theorem storeBytes_wf (bs : List Byte) {m : Memory} (a : Nat) (h : Memory.wf m = true) :
    Memory.wf (storeBytes m a bs) = true := by
  induction bs generalizing m a with
  | nil => exact h
  | cons b bs ih => exact ih (a + 1) (memWrite_wf a b h)

/-- A sequence of stores leaves every other byte as it was. -/
theorem memRead_storeBytes_frame (bs : List Byte) (m : Memory) (a b : Nat)
    (h : ∀ j < bs.length, effAddr b ≠ effAddr (a + j)) :
    memRead (storeBytes m a bs) b = memRead m b := by
  induction bs generalizing m a with
  | nil => rfl
  | cons v bs ih =>
    have h0 : effAddr b ≠ effAddr a := h 0 (by simp)
    have hs : ∀ j < bs.length, effAddr b ≠ effAddr (a + 1 + j) := fun j hj => by
      simpa [Nat.add_assoc, Nat.add_comm 1] using h (j + 1) (by simpa using hj)
    rw [storeBytes, ih _ _ hs, memRead_memWrite, if_neg h0]

/-- A sequence of at most 4096 stores puts the j-th byte at the j-th address. -/
theorem memRead_storeBytes (bs : List Byte) (m : Memory) (a j : Nat) (hl : bs.length ≤ 4096) (hj : j < bs.length) :
    memRead (storeBytes m a bs) (a + j) = bs[j] := by
  induction bs generalizing m a j with
  | nil => simp at hj
  | cons v bs ih =>
    simp only [List.length_cons] at hl hj
    cases j with
    | zero =>
      have hne : ∀ k < bs.length, effAddr a ≠ effAddr (a + 1 + k) := fun k hk => by
        simp only [effAddr_eq]; omega
      simp [storeBytes, memRead_storeBytes_frame _ _ _ _ hne, memRead_memWrite]
    | succ j =>
      have := ih (memWrite m a v) (a + 1) j (by omega) (by omega)
      rw [show a + (j + 1) = a + 1 + j by omega]
      simpa [storeBytes] using this

/-- The registers after a load of the first `k`: the bytes read below `k`, what was there from `k` up. -/
theorem loadRegs_getElem (m : Memory) (a : Nat) (v : Vector Byte 16) (k i : Nat) (hi : i < 16) :
    (loadRegs m a v k)[i] = if i < k then memRead m (a + i) else v[i] := by
  induction k with
  | zero => simp [loadRegs]
  | succ j ih =>
    rw [loadRegs, Vector.getElem_setIfInBounds, ih]
    grind

/-! ### Stack -/

/-- A push with a free slot. -/
theorem pushPc_of_lt (s : State) (h : s.sp.val < 16) :
    pushPc s = some { s with stack := s.stack.set s.sp.val s.pc h, sp := ⟨s.sp.val + 1, by omega⟩ } := by
  simp [pushPc, h, State.setStack, State.setSp]

/-- A push with all 16 slots occupied (R242). -/
theorem pushPc_of_full (s : State) (h : s.sp = 16) : pushPc s = none := by
  simp [pushPc, h, show (16 : Fin 17).val = 16 from rfl]

/-- A pop with an occupied slot: the top slot's value, and only sp changes. -/
theorem popAddr_of_succ (s : State) (j : Fin 16) (h : s.sp.val = j.val + 1) :
    popAddr s = some (s.stack[j], { s with sp := ⟨j.val, by omega⟩ }) := by
  unfold popAddr
  split
  · next h0 => simp [h0] at h
  · next k hk hs =>
    have : k = j.val := by simpa [hs] using h
    subst this
    rfl

/-- A pop with no occupied slot (R243). -/
theorem popAddr_of_empty (s : State) (h : s.sp = 0) : popAddr s = none := by
  unfold popAddr
  split
  · rfl
  · next k hk hs => simp [hs, Fin.ext_iff] at h

/-! ### Fatal conditions -/

theorem raiseFatal_eq (c : FatalCode) (op : Word) (s : State) :
    raiseFatal c op s = { s with halt := some ⟨c, op, s.pc⟩ } := rfl

/-! ### The cycle -/

theorem cycleState_running {s : State} : cycleState s = .running ↔ s.halt = none ∧ s.wait = none := by
  unfold cycleState; split <;> simp_all

theorem cycleState_awaitingKey {s : State} {r : RegIdx} :
    cycleState s = .awaitingKey r ↔ s.halt = none ∧ s.wait = some r := by
  unfold cycleState; split <;> simp_all

theorem cycleState_halted {s : State} : cycleState s = .halted ↔ s.halt ≠ none := by
  unfold cycleState; split <;> simp_all

/-- The least pressed key. -/
theorem firstKey_eq_some {keys : BitVec 16} {k : Nat} :
    firstKey keys = some k ↔ k < 16 ∧ keys.getLsbD k = true ∧ ∀ j < k, keys.getLsbD j = false := by
  unfold firstKey
  rw [List.find?_range_eq_some]
  simp only [Bool.not_eq_true', List.mem_range]
  exact and_left_comm

/-- No key is pressed. -/
theorem firstKey_eq_none {keys : BitVec 16} : firstKey keys = none ↔ ∀ k < 16, keys.getLsbD k = false := by
  simp [firstKey]

/-- A tick subtracts one with floor 0 (R129). -/
theorem tickDown_toNat (t : Byte) : (tickDown t).toNat = t.toNat - 1 := by
  unfold tickDown
  split
  · next h => simp [h]
  · next h =>
    have : t.toNat ≠ 0 := fun e => h (BitVec.eq_of_toNat_eq (by simpa using e))
    have := t.isLt
    rw [BitVec.toNat_sub]
    simp
    omega

/-- The end of a cycle that has not halted ticks both timers and changes nothing else. -/
theorem endCycle_of_not_halted {s : State} (h : s.halt = none) :
    endCycle s = { s with dt := tickDown s.dt, st := tickDown s.st } := by
  simp [endCycle, h, tickTimers, State.setDt, State.setSt]

/-- The end of a cycle that has halted changes nothing. -/
theorem endCycle_of_halted {s : State} {r : HaltRecord} (h : s.halt = some r) : endCycle s = s := by
  simp [endCycle, h]

/-! ### The loader -/

theorem loadBytes_wf (bytes : List Byte) {m : Memory} (a : Nat) (h : Memory.wf m = true) :
    Memory.wf (loadBytes m a bytes) = true := by
  induction bytes generalizing m a with
  | nil => exact h
  | cons b bs ih =>
    unfold loadBytes
    split
    · next ha => exact ih (a + 1) (Memory.wf_write b ha h)
    · exact h

/-! ### The display -/

/-- A pixel after the write of a pixel. -/
theorem pixelAt_setPixel (d : Display) (row row' : Fin 32) (col col' : Fin 64) (b : Bool) :
    pixelAt (setPixel d row col b) row' col' =
      if row' = row ∧ col' = col then b else pixelAt d row' col' := by
  have row_set : ∀ (v : Vector Bool 64), (v.set col b)[col'] = if col' = col then b else v[col'] := by
    intro v
    simp [Vector.getElem_set, Fin.ext_iff, eq_comm]
  have fb_set : ∀ (v : Vector Bool 64), (d.set row v)[row'] = if row' = row then v else d[row'] := by
    intro v
    simp [Vector.getElem_set, Fin.ext_iff, eq_comm]
  unfold pixelAt setPixel
  rw [fb_set]
  by_cases hr : row' = row
  · subst hr
    simp [row_set]
  · simp [hr]

/-- Displays with the same pixels are the same display. -/
theorem display_ext {d e : Display} (h : ∀ row col, pixelAt d row col = pixelAt e row col) : d = e := by
  apply Vector.ext
  intro r hr
  apply Vector.ext
  intro c hc
  exact h ⟨r, hr⟩ ⟨c, hc⟩

@[simp] theorem pixelAt_blankDisplay (row : Fin 32) (col : Fin 64) : pixelAt blankDisplay row col = false := by
  simp [pixelAt, blankDisplay]

end Sys2Proof.Machine
end

