-- ==== Sys2Proof/Laws/PerInstr.lean ====
section
/-! SUPPORT. What holds of every instruction as syntax: its operands are in the ranges of R101, its row is one of R94's,
and its encoding matches its row. One lemma per constructor. -/

namespace Sys2Proof.Laws.TableRow

/-- The operands are in range, the row is in the table, and the encoded word matches the row's mask and pattern. -/
def Statement (i : Instr) : Prop :=
  i.wellFormed = true ∧ rowOf i ∈ opcodeTable ∧ (rowOf i).hits (encodeWord i) = true

theorem reg_ok (x : RegIdx) : regInRange x.val = true := by
  have := x.isLt
  simp [regInRange]; omega

theorem byte_ok (kk : Byte) : byteInRange kk.toNat = true := by
  have := kk.isLt
  simp [byteInRange]; omega

theorem nib_ok (n : Nibble) : nibInRange n.toNat = true := by
  have := n.isLt
  simp [nibInRange]; omega

theorem addr_ok (nnn : Addr) : addrInRange nnn.toNat = true := by
  have := nnn.isLt
  simp [addrInRange]; omega

theorem cls : Statement (.cls) :=
  ⟨rfl,
    List.mem_of_elem_eq_true rfl,
    rfl⟩

theorem ret : Statement (.ret) :=
  ⟨rfl,
    List.mem_of_elem_eq_true rfl,
    rfl⟩

theorem jp (nnn : Addr) : Statement (.jp nnn) :=
  ⟨addr_ok nnn,
    List.mem_of_elem_eq_true rfl,
    by simp only [OpcodeRow.hits, rowOf, encodeWord, and_maskG, fieldG_encodeA]; decide⟩

theorem call (nnn : Addr) : Statement (.call nnn) :=
  ⟨addr_ok nnn,
    List.mem_of_elem_eq_true rfl,
    by simp only [OpcodeRow.hits, rowOf, encodeWord, and_maskG, fieldG_encodeA]; decide⟩

theorem seImm (x : RegIdx) (kk : Byte) : Statement (.seImm x kk) :=
  ⟨by simp [Instr.wellFormed, Instr.operands, RawOperands.wellFormed, reg_ok, byte_ok],
    List.mem_of_elem_eq_true rfl,
    by simp only [OpcodeRow.hits, rowOf, encodeWord, and_maskG, fieldG_encodeXK]; decide⟩

theorem sneImm (x : RegIdx) (kk : Byte) : Statement (.sneImm x kk) :=
  ⟨by simp [Instr.wellFormed, Instr.operands, RawOperands.wellFormed, reg_ok, byte_ok],
    List.mem_of_elem_eq_true rfl,
    by simp only [OpcodeRow.hits, rowOf, encodeWord, and_maskG, fieldG_encodeXK]; decide⟩

theorem seReg (x y : RegIdx) : Statement (.seReg x y) :=
  ⟨by simp [Instr.wellFormed, Instr.operands, RawOperands.wellFormed, reg_ok],
    List.mem_of_elem_eq_true rfl,
    by simp only [OpcodeRow.hits, rowOf, encodeWord, and_maskGN, fieldG_encodeXYN, fieldN_encodeXYN]; decide⟩

theorem ldImm (x : RegIdx) (kk : Byte) : Statement (.ldImm x kk) :=
  ⟨by simp [Instr.wellFormed, Instr.operands, RawOperands.wellFormed, reg_ok, byte_ok],
    List.mem_of_elem_eq_true rfl,
    by simp only [OpcodeRow.hits, rowOf, encodeWord, and_maskG, fieldG_encodeXK]; decide⟩

theorem addImm (x : RegIdx) (kk : Byte) : Statement (.addImm x kk) :=
  ⟨by simp [Instr.wellFormed, Instr.operands, RawOperands.wellFormed, reg_ok, byte_ok],
    List.mem_of_elem_eq_true rfl,
    by simp only [OpcodeRow.hits, rowOf, encodeWord, and_maskG, fieldG_encodeXK]; decide⟩

theorem ldReg (x y : RegIdx) : Statement (.ldReg x y) :=
  ⟨by simp [Instr.wellFormed, Instr.operands, RawOperands.wellFormed, reg_ok],
    List.mem_of_elem_eq_true rfl,
    by simp only [OpcodeRow.hits, rowOf, encodeWord, and_maskGN, fieldG_encodeXYN, fieldN_encodeXYN]; decide⟩

theorem orReg (x y : RegIdx) : Statement (.orReg x y) :=
  ⟨by simp [Instr.wellFormed, Instr.operands, RawOperands.wellFormed, reg_ok],
    List.mem_of_elem_eq_true rfl,
    by simp only [OpcodeRow.hits, rowOf, encodeWord, and_maskGN, fieldG_encodeXYN, fieldN_encodeXYN]; decide⟩

theorem andReg (x y : RegIdx) : Statement (.andReg x y) :=
  ⟨by simp [Instr.wellFormed, Instr.operands, RawOperands.wellFormed, reg_ok],
    List.mem_of_elem_eq_true rfl,
    by simp only [OpcodeRow.hits, rowOf, encodeWord, and_maskGN, fieldG_encodeXYN, fieldN_encodeXYN]; decide⟩

theorem xorReg (x y : RegIdx) : Statement (.xorReg x y) :=
  ⟨by simp [Instr.wellFormed, Instr.operands, RawOperands.wellFormed, reg_ok],
    List.mem_of_elem_eq_true rfl,
    by simp only [OpcodeRow.hits, rowOf, encodeWord, and_maskGN, fieldG_encodeXYN, fieldN_encodeXYN]; decide⟩

theorem addReg (x y : RegIdx) : Statement (.addReg x y) :=
  ⟨by simp [Instr.wellFormed, Instr.operands, RawOperands.wellFormed, reg_ok],
    List.mem_of_elem_eq_true rfl,
    by simp only [OpcodeRow.hits, rowOf, encodeWord, and_maskGN, fieldG_encodeXYN, fieldN_encodeXYN]; decide⟩

theorem sub (x y : RegIdx) : Statement (.sub x y) :=
  ⟨by simp [Instr.wellFormed, Instr.operands, RawOperands.wellFormed, reg_ok],
    List.mem_of_elem_eq_true rfl,
    by simp only [OpcodeRow.hits, rowOf, encodeWord, and_maskGN, fieldG_encodeXYN, fieldN_encodeXYN]; decide⟩

theorem shr (x y : RegIdx) : Statement (.shr x y) :=
  ⟨by simp [Instr.wellFormed, Instr.operands, RawOperands.wellFormed, reg_ok],
    List.mem_of_elem_eq_true rfl,
    by simp only [OpcodeRow.hits, rowOf, encodeWord, and_maskGN, fieldG_encodeXYN, fieldN_encodeXYN]; decide⟩

theorem subn (x y : RegIdx) : Statement (.subn x y) :=
  ⟨by simp [Instr.wellFormed, Instr.operands, RawOperands.wellFormed, reg_ok],
    List.mem_of_elem_eq_true rfl,
    by simp only [OpcodeRow.hits, rowOf, encodeWord, and_maskGN, fieldG_encodeXYN, fieldN_encodeXYN]; decide⟩

theorem shl (x y : RegIdx) : Statement (.shl x y) :=
  ⟨by simp [Instr.wellFormed, Instr.operands, RawOperands.wellFormed, reg_ok],
    List.mem_of_elem_eq_true rfl,
    by simp only [OpcodeRow.hits, rowOf, encodeWord, and_maskGN, fieldG_encodeXYN, fieldN_encodeXYN]; decide⟩

theorem sneReg (x y : RegIdx) : Statement (.sneReg x y) :=
  ⟨by simp [Instr.wellFormed, Instr.operands, RawOperands.wellFormed, reg_ok],
    List.mem_of_elem_eq_true rfl,
    by simp only [OpcodeRow.hits, rowOf, encodeWord, and_maskGN, fieldG_encodeXYN, fieldN_encodeXYN]; decide⟩

theorem ldI (nnn : Addr) : Statement (.ldI nnn) :=
  ⟨addr_ok nnn,
    List.mem_of_elem_eq_true rfl,
    by simp only [OpcodeRow.hits, rowOf, encodeWord, and_maskG, fieldG_encodeA]; decide⟩

theorem jpV0 (nnn : Addr) : Statement (.jpV0 nnn) :=
  ⟨addr_ok nnn,
    List.mem_of_elem_eq_true rfl,
    by simp only [OpcodeRow.hits, rowOf, encodeWord, and_maskG, fieldG_encodeA]; decide⟩

theorem rnd (x : RegIdx) (kk : Byte) : Statement (.rnd x kk) :=
  ⟨by simp [Instr.wellFormed, Instr.operands, RawOperands.wellFormed, reg_ok, byte_ok],
    List.mem_of_elem_eq_true rfl,
    by simp only [OpcodeRow.hits, rowOf, encodeWord, and_maskG, fieldG_encodeXK]; decide⟩

theorem drw (x y : RegIdx) (n : Nibble) : Statement (.drw x y n) :=
  ⟨by simp [Instr.wellFormed, Instr.operands, RawOperands.wellFormed, reg_ok, nib_ok],
    List.mem_of_elem_eq_true rfl,
    by simp only [OpcodeRow.hits, rowOf, encodeWord, and_maskG, fieldG_encodeXYN]; decide⟩

theorem skp (x : RegIdx) : Statement (.skp x) :=
  ⟨reg_ok x,
    List.mem_of_elem_eq_true rfl,
    by simp only [OpcodeRow.hits, rowOf, encodeWord, and_maskGKK, fieldG_encodeXK, fieldKK_encodeXK]; decide⟩

theorem sknp (x : RegIdx) : Statement (.sknp x) :=
  ⟨reg_ok x,
    List.mem_of_elem_eq_true rfl,
    by simp only [OpcodeRow.hits, rowOf, encodeWord, and_maskGKK, fieldG_encodeXK, fieldKK_encodeXK]; decide⟩

theorem ldVxDt (x : RegIdx) : Statement (.ldVxDt x) :=
  ⟨reg_ok x,
    List.mem_of_elem_eq_true rfl,
    by simp only [OpcodeRow.hits, rowOf, encodeWord, and_maskGKK, fieldG_encodeXK, fieldKK_encodeXK]; decide⟩

theorem ldVxK (x : RegIdx) : Statement (.ldVxK x) :=
  ⟨reg_ok x,
    List.mem_of_elem_eq_true rfl,
    by simp only [OpcodeRow.hits, rowOf, encodeWord, and_maskGKK, fieldG_encodeXK, fieldKK_encodeXK]; decide⟩

theorem ldDtVx (x : RegIdx) : Statement (.ldDtVx x) :=
  ⟨reg_ok x,
    List.mem_of_elem_eq_true rfl,
    by simp only [OpcodeRow.hits, rowOf, encodeWord, and_maskGKK, fieldG_encodeXK, fieldKK_encodeXK]; decide⟩

theorem ldStVx (x : RegIdx) : Statement (.ldStVx x) :=
  ⟨reg_ok x,
    List.mem_of_elem_eq_true rfl,
    by simp only [OpcodeRow.hits, rowOf, encodeWord, and_maskGKK, fieldG_encodeXK, fieldKK_encodeXK]; decide⟩

theorem addI (x : RegIdx) : Statement (.addI x) :=
  ⟨reg_ok x,
    List.mem_of_elem_eq_true rfl,
    by simp only [OpcodeRow.hits, rowOf, encodeWord, and_maskGKK, fieldG_encodeXK, fieldKK_encodeXK]; decide⟩

theorem ldF (x : RegIdx) : Statement (.ldF x) :=
  ⟨reg_ok x,
    List.mem_of_elem_eq_true rfl,
    by simp only [OpcodeRow.hits, rowOf, encodeWord, and_maskGKK, fieldG_encodeXK, fieldKK_encodeXK]; decide⟩

theorem ldB (x : RegIdx) : Statement (.ldB x) :=
  ⟨reg_ok x,
    List.mem_of_elem_eq_true rfl,
    by simp only [OpcodeRow.hits, rowOf, encodeWord, and_maskGKK, fieldG_encodeXK, fieldKK_encodeXK]; decide⟩

theorem ldMemVx (x : RegIdx) : Statement (.ldMemVx x) :=
  ⟨reg_ok x,
    List.mem_of_elem_eq_true rfl,
    by simp only [OpcodeRow.hits, rowOf, encodeWord, and_maskGKK, fieldG_encodeXK, fieldKK_encodeXK]; decide⟩

theorem ldVxMem (x : RegIdx) : Statement (.ldVxMem x) :=
  ⟨reg_ok x,
    List.mem_of_elem_eq_true rfl,
    by simp only [OpcodeRow.hits, rowOf, encodeWord, and_maskGKK, fieldG_encodeXK, fieldKK_encodeXK]; decide⟩

end Sys2Proof.Laws.TableRow
end

