-- ==== Sys2Proof/Laws/Step.lean ====
section
/-! SUPPORT. What a step can do, said once: one equation per branch of `run_cycle` (R120), and the case split over them. -/

namespace Sys2Proof.Machine

/-- A Halted cycle (R122). -/
theorem step_halted {s : State} (h : cycleState s = .halted) : step s = .next { s with dirty := false } := by
  simp [step, runCycle, h, State.setDirty]

/-- An AwaitingKey cycle (R124). -/
theorem step_awaitingKey {s : State} {r : RegIdx} (h : cycleState s = .awaitingKey r) :
    step s = .next (scanKeys r { s with dirty := false }) := by
  simp [step, runCycle, h, State.setDirty]

/-- A Running cycle is fetch, decode and dispatch on the state with `dirty` cleared. -/
theorem step_running {s : State} (h : cycleState s = .running) : step s = runInstr { s with dirty := false } := by
  simp [step, runCycle, h, State.setDirty]

/-- Clearing `dirty` does not change what is fetched. -/
@[simp] theorem fetchWord_clean (s : State) : fetchWord { s with dirty := false } = fetchWord s := rfl

/-- A Running cycle on an unrecognised word (R128). -/
theorem step_unrecognised {s : State} (h : cycleState s = .running) (hd : decodeWord (fetchWord s) = none) :
    step s = .next { s with dirty := false, halt := some ⟨.unknownOpcode, fetchWord s, s.pc⟩ } := by
  rw [step_running h]
  simp only [runInstr, fetchWord_clean, hd, raiseFatal_eq]

/-- A Running cycle on an instruction whose handler answers a next state. -/
theorem step_instr {s t : State} {i : Instr} (h : cycleState s = .running) (hd : decodeWord (fetchWord s) = some i)
    (he : exec i { s with dirty := false } = .next t) : step s = .next (endCycle t) := by
  rw [step_running h]
  simp only [runInstr, fetchWord_clean, hd, he]

/-- What a step that answers a next state has done: one of the four branches of R120. -/
theorem step_cases {s t : State} (h : step s = .next t) :
    (cycleState s = .halted ∧ t = { s with dirty := false }) ∨
    (∃ r, cycleState s = .awaitingKey r ∧ t = scanKeys r { s with dirty := false }) ∨
    (cycleState s = .running ∧ decodeWord (fetchWord s) = none ∧
      t = { s with dirty := false, halt := some ⟨.unknownOpcode, fetchWord s, s.pc⟩ }) ∨
    (∃ i u, cycleState s = .running ∧ decodeWord (fetchWord s) = some i ∧
      exec i { s with dirty := false } = .next u ∧ t = endCycle u) := by
  cases hc : cycleState s with
  | halted =>
    rw [step_halted hc] at h
    exact .inl ⟨rfl, (Host.Outcome.next.inj h).symm⟩
  | awaitingKey r =>
    rw [step_awaitingKey hc] at h
    exact .inr (.inl ⟨r, rfl, (Host.Outcome.next.inj h).symm⟩)
  | running =>
    cases hd : decodeWord (fetchWord s) with
    | none =>
      rw [step_unrecognised hc hd] at h
      exact .inr (.inr (.inl ⟨rfl, rfl, (Host.Outcome.next.inj h).symm⟩))
    | some i =>
      rw [step_running hc] at h
      simp only [runInstr, fetchWord_clean, hd] at h
      split at h
      · next u hu => exact .inr (.inr (.inr ⟨i, u, rfl, rfl, hu, (Host.Outcome.next.inj h).symm⟩))
      · cases h
      · cases h

/-- An AwaitingKey cycle with a key down: the least one goes to the register. -/
theorem scanKeys_of_some {s : State} (r : RegIdx) {k : Nat} (h : firstKey s.keys = some k) :
    scanKeys r s = { s with regs := s.regs.set r (BitVec.ofNat 8 k), wait := none } := by
  simp [scanKeys, h, writeReg, State.setRegs, State.setWait]

/-- An AwaitingKey cycle with no key down. -/
theorem scanKeys_of_none {s : State} (r : RegIdx) (h : firstKey s.keys = none) : scanKeys r s = s := by
  simp [scanKeys, h]

/-- A run whose first step answers a next state goes on from there. -/
theorem core_run_succ (k : Nat) {s t : State} (h : step s = .next t) :
    Host.Core.run Sys2Proof.core (k + 1) s = Host.Core.run Sys2Proof.core k t := by
  have unfold_run : ∀ (M : Host.Core) (u v : M.State), M.step u = .next v → M.run (k + 1) u = M.run k v := by
    intro M u v huv
    rw [Host.Core.run, huv]
  exact unfold_run Sys2Proof.core s t h

end Sys2Proof.Machine
end

