-- ==== Sys2Proof/Machine/Listing.lean ====
section
/-! DEFINITION. Listings (`spec/30_encoding.md` R99 to R102): the mnemonic syntax of each instruction, the one data
directive `DB`, and the bytes a listing stands for. No rule of the machine depends on this file. -/

namespace Sys2Proof.Machine

/-- One hexadecimal digit. -/
def hexDigit (v : Nat) : String :=
  ["0", "1", "2", "3", "4", "5", "6", "7", "8", "9", "A", "B", "C", "D", "E", "F"].getD v ""

/-- `V0` to `VF`. -/
def showReg (x : RegIdx) : String := "V" ++ hexDigit x.val

/-- A byte, as `0x` and two digits. -/
def showByte (b : Byte) : String := "0x" ++ hexDigit (b.toNat / 16) ++ hexDigit (b.toNat % 16)

/-- An address, as `0x` and three digits. -/
def showAddr (a : Addr) : String :=
  "0x" ++ hexDigit (a.toNat / 256) ++ hexDigit (a.toNat / 16 % 16) ++ hexDigit (a.toNat % 16)

/-- A count, as `0x` and one digit. -/
def showNib (n : Nibble) : String := "0x" ++ hexDigit n.toNat

/-- Two registers as operands. -/
def showRegs (x y : RegIdx) : String := showReg x ++ ", " ++ showReg y

/-- R99: an instruction as a listing shows it (the syntax is the spec's decision D22). -/
def listing : Instr → String
  | .cls => "CLS"
  | .ret => "RET"
  | .jp nnn => "JP " ++ showAddr nnn
  | .call nnn => "CALL " ++ showAddr nnn
  | .seImm x kk => "SE " ++ showReg x ++ ", " ++ showByte kk
  | .sneImm x kk => "SNE " ++ showReg x ++ ", " ++ showByte kk
  | .seReg x y => "SE " ++ showRegs x y
  | .ldImm x kk => "LD " ++ showReg x ++ ", " ++ showByte kk
  | .addImm x kk => "ADD " ++ showReg x ++ ", " ++ showByte kk
  | .ldReg x y => "LD " ++ showRegs x y
  | .orReg x y => "OR " ++ showRegs x y
  | .andReg x y => "AND " ++ showRegs x y
  | .xorReg x y => "XOR " ++ showRegs x y
  | .addReg x y => "ADD " ++ showRegs x y
  | .sub x y => "SUB " ++ showRegs x y
  | .shr x y => "SHR " ++ showRegs x y
  | .subn x y => "SUBN " ++ showRegs x y
  | .shl x y => "SHL " ++ showRegs x y
  | .sneReg x y => "SNE " ++ showRegs x y
  | .ldI nnn => "LD I, " ++ showAddr nnn
  | .jpV0 nnn => "JP V0, " ++ showAddr nnn
  | .rnd x kk => "RND " ++ showReg x ++ ", " ++ showByte kk
  | .drw x y n => "DRW " ++ showRegs x y ++ ", " ++ showNib n
  | .skp x => "SKP " ++ showReg x
  | .sknp x => "SKNP " ++ showReg x
  | .ldVxDt x => "LD " ++ showReg x ++ ", DT"
  | .ldVxK x => "LD " ++ showReg x ++ ", K"
  | .ldDtVx x => "LD DT, " ++ showReg x
  | .ldStVx x => "LD ST, " ++ showReg x
  | .addI x => "ADD I, " ++ showReg x
  | .ldF x => "LD F, " ++ showReg x
  | .ldB x => "LD B, " ++ showReg x
  | .ldMemVx x => "LD [I], " ++ showReg x
  | .ldVxMem x => "LD " ++ showReg x ++ ", [I]"

/-- R100: one line of a listing. -/
inductive ListingLine where
  /-- an instruction -/
  | instr (i : Instr)
  /-- `DB b0, b1, ...` -/
  | db (bytes : List Byte)
deriving DecidableEq, Repr

/-- R100, R102: the bytes of one line. -/
def lineBytes : ListingLine → List Byte
  | .instr i => encodeBytes i
  | .db bytes => bytes

/-- R100: the bytes of a listing, at consecutive addresses. -/
def assemble (lines : List ListingLine) : List Byte := lines.flatMap lineBytes

end Sys2Proof.Machine
end

