-- ==== Sys2Proof/Tests/Slice0.lean ====
section
/-! SUPPORT. Tests. Expected results are those of the spec's test vectors (`spec/95_test_vectors.md`), named by their ids, or
words written out from the pattern column of R94. `met_…` theorems show states and operands that meet the hypotheses of
the statement they name, at the edges of its clauses. -/

open Sys2Proof Sys2Proof.Machine Sys2Proof.Safety

namespace Sys2Proof.Tests

/-! ### Helpers -/

/-- The next state an outcome carries. -/
def nextOf (o : Host.Outcome State Fault Refusal) : State :=
  match o with
  | .next t => t
  | .fault _ => State.reset
  | .refused _ => State.reset

/-- The reset state with pc `pc`, the word `op` placed there, and the registers `vs` set. -/
def before (pc op : Word) (vs : List (RegIdx × Byte)) : State :=
  vs.foldl (fun s p => writeReg s p.1 p.2) (placeWord (State.reset.setPc pc) op)

/-- `s` with the bytes `bs` at `a`. -/
def withBytes (s : State) (a : Nat) (bs : List Byte) : State := s.setMem (storeBytes s.mem a bs)

/-- One step. -/
def after (s : State) : State := nextOf (step s)

/-- The bytes `a` to `a + k - 1`. -/
def bytesAt (s : State) (a k : Nat) : List Byte := (List.range k).map (fun j => readByte s (a + j))

/-- The columns of the set pixels of a row. -/
def litColumns (s : State) (row : Fin 32) : List (Fin 64) := (List.finRange 64).filter (fun c => pixelAt s.fb row c)

/-- pc in `DRW V0, V1, n` on an empty display at column `cx`, row `cy`, with the sprite bytes `bs` at 0x300. -/
def drawing (n : Nibble) (cx cy : Byte) (bs : List Byte) : State :=
  (withBytes (before 0x200 (0xD010#16 ||| n.zeroExtend 16) [(0, cx), (1, cy)]) 0x300 bs).setI 0x300

/-! ### Well-formedness: each check refuses an ill-formed term (R101) -/

theorem test_addr_range : (RawOperands.a 0x1000).wellFormed = false ∧ (RawOperands.a 0xFFF).wellFormed = true := by decide

theorem test_byte_range : (RawOperands.xk 0 0x100).wellFormed = false ∧ (RawOperands.xk 15 0xFF).wellFormed = true := by
  decide

theorem test_reg_range : (RawOperands.xs 16).wellFormed = false ∧ (RawOperands.xk 16 0).wellFormed = false ∧
    (RawOperands.xy 0 16).wellFormed = false ∧ (RawOperands.xyn 16 0 0).wellFormed = false ∧
    (RawOperands.xs 15).wellFormed = true ∧ (RawOperands.xy 15 15).wellFormed = true := by decide

theorem test_nib_range : (RawOperands.xyn 0 0 16).wellFormed = false ∧ (RawOperands.xyn 15 15 15).wellFormed = true := by
  decide

theorem test_odd_target : (Instr.jp 0x201).oddTarget = true ∧ (Instr.call 0x20A).oddTarget = false ∧
    (Instr.jpV0 0x301).oddTarget = true ∧ (Instr.ldI 0x301).oddTarget = false := by decide

/-! ### Decoding: every constructor's word, written out from R94 -/

theorem test_decode_group0 : decodeWord 0b0000000011100000 = some .cls ∧ decodeWord 0b0000000011101110 = some .ret ∧
    decodeWord 0x0000 = none ∧ decodeWord 0x00E1 = none ∧ decodeWord 0x0123 = none := by decide

theorem test_decode_addr : decodeWord 0b0001000011100000 = some (.jp 0x0E0) ∧
    decodeWord 0b0010001000001010 = some (.call 0x20A) ∧ decodeWord 0b1010001011110000 = some (.ldI 0x2F0) ∧
    decodeWord 0b1011111111111111 = some (.jpV0 0xFFF) := by decide

theorem test_decode_byte : decodeWord 0b0011001100101010 = some (.seImm 3 0x2A) ∧
    decodeWord 0b0100001100101010 = some (.sneImm 3 0x2A) ∧ decodeWord 0b0110101000111100 = some (.ldImm 10 0x3C) ∧
    decodeWord 0b0111111111111111 = some (.addImm 15 0xFF) ∧ decodeWord 0b1100000011111111 = some (.rnd 0 0xFF) := by
  decide

theorem test_decode_two_registers : decodeWord 0b0101000100100000 = some (.seReg 1 2) ∧
    decodeWord 0b1001000100100000 = some (.sneReg 1 2) ∧ decodeWord 0b1000000100100000 = some (.ldReg 1 2) ∧
    decodeWord 0b1000000100100001 = some (.orReg 1 2) ∧ decodeWord 0b1000000100100010 = some (.andReg 1 2) ∧
    decodeWord 0b1000000100100011 = some (.xorReg 1 2) ∧ decodeWord 0b1000000100100100 = some (.addReg 1 2) := by decide

theorem test_decode_two_registers_rest : decodeWord 0b1000000100100101 = some (.sub 1 2) ∧
    decodeWord 0b1000000100100110 = some (.shr 1 2) ∧ decodeWord 0b1000000100100111 = some (.subn 1 2) ∧
    decodeWord 0b1000000100101110 = some (.shl 1 2) ∧ decodeWord 0b1101000000010101 = some (.drw 0 1 5) := by decide

theorem test_decode_one_register : decodeWord 0b1110000110011110 = some (.skp 1) ∧
    decodeWord 0b1110000110100001 = some (.sknp 1) ∧ decodeWord 0b1111001000000111 = some (.ldVxDt 2) ∧
    decodeWord 0b1111111100001010 = some (.ldVxK 15) ∧ decodeWord 0b1111000000010101 = some (.ldDtVx 0) ∧
    decodeWord 0b1111000000011000 = some (.ldStVx 0) := by decide

theorem test_decode_one_register_rest : decodeWord 0b1111000100011110 = some (.addI 1) ∧
    decodeWord 0b1111001100101001 = some (.ldF 3) ∧ decodeWord 0b1111000000110011 = some (.ldB 0) ∧
    decodeWord 0b1111001001010101 = some (.ldMemVx 2) ∧ decodeWord 0b1111000101100101 = some (.ldVxMem 1) := by decide

/-- E8, E10, E11, E13, E16, E18, E19, and the edges of each group of R96. -/
theorem test_unrecognised : ([0x0FFF, 0x5121, 0x512F, 0x8128, 0x812D, 0x812F, 0x9121, 0x912F, 0xE19F, 0xE1A0, 0xE100, 0xF100,
    0xF1FF, 0xF106, 0xF166] : List Word).all (fun op => (decodeWord op).isNone) = true := by decide

/-- R102's examples. -/
theorem test_encode : encodeWord (.drw 0 1 5) = 0xD015 ∧ encodeBytes (.ldImm 10 0x3C) = [0x6A, 0x3C] ∧
    encodeWord (.ldMemVx 2) = 0xF255 ∧ encodeWord (.seReg 3 4) = 0x5340 ∧ encodeWord (.jpV0 0x300) = 0xB300 ∧
    encodeWord (.shl 1 0) = 0x810E ∧ encodeWord (.sknp 11) = 0xEBA1 := by decide

theorem test_decode_bytes : decodeBytes [0xF2, 0x55, 0x12] = .instr (.ldMemVx 2) [0x12] ∧
    decodeBytes [0x81, 0x28] = .unrecognised 0x8128 ∧ decodeBytes [0x60] = .truncated [0x60] ∧
    decodeBytes [] = .truncated [] := by decide

/-- R99's syntax, and program P2's last two lines with a `DB` (R100). -/
theorem test_listing : listing (.drw 0 1 5) = "DRW V0, V1, 0x5" ∧ listing (.jpV0 0x300) = "JP V0, 0x300" ∧
    listing (.ldImm 10 0x3C) = "LD VA, 0x3C" ∧
    assemble [.instr (.ldB 0), .instr .ret, .db [0xAC, 0x30]] = [0xF0, 0x33, 0x00, 0xEE, 0xAC, 0x30] := by decide

/-! ### Fetch -/

theorem test_fetch_odd_M2 : fetchWord (withBytes (State.reset.setPc 0x0201) 0x201 [0x34, 0x60]) = 0x3460 := by decide

theorem test_fetch_wraps_M3 :
    let t := after (withBytes (State.reset.setPc 0x0FFF) 0xFFF [0x60])
    readReg t 0 = 0xF0 ∧ t.pc = 0x1001 := by decide

theorem test_fetch_reduced_M4 :
    let t := after (withBytes (State.reset.setPc 0x1200) 0x200 [0x70, 0x01])
    readReg t 0 = 0x01 ∧ t.pc = 0x1202 := by decide

/-! ### Control flow -/

theorem test_jp_F1 : (after (before 0x200 0x1ABC [])).pc = 0x0ABC := by decide

theorem test_jp_odd_F2 : (after (before 0x200 0x1201 [])).pc = 0x0201 := by decide

theorem test_se_imm_F3 : (after (before 0x300 0x332A [(3, 0x2A)])).pc = 0x0304 := by decide

theorem test_se_imm_wraps_F8 : (after (before 0xFFFE 0x3100 [(1, 0)])).pc = 0x0002 := by decide

theorem test_sne_imm_F5 : (after (before 0x300 0x432A [(3, 0x2A)])).pc = 0x0302 := by decide

theorem test_se_reg_F6 : (after (before 0x200 0x5550 [(5, 0x99)])).pc = 0x0204 := by decide

theorem test_sne_reg_F7 : (after (before 0x200 0x9550 [(5, 0x99)])).pc = 0x0202 := by decide

theorem test_call_F10 :
    let t := after ((before 0x400 0x2500 []).setSp 15)
    t.stack[15] = 0x0400 ∧ t.sp = 16 ∧ t.pc = 0x0500 := by decide

theorem test_call_full_F11 :
    let t := after (((before 0x400 0x2500 []).setSp 16).setDt 5)
    t.halt = some ⟨.stackOverflow, 0x2500, 0x0400⟩ ∧ haltRecord t = some (2, 0x2500, 0x0400) ∧ t.pc = 0x0400 ∧
      t.sp = 16 ∧ t.dt = 5 := by decide

theorem test_ret_F12 :
    let t := after (((before 0x20C 0x00EE []).setSp 1).setStack (State.reset.stack.set 0 0x0204))
    t.sp = 0 ∧ t.pc = 0x0206 ∧ t.stack[0] = 0x0204 := by decide

theorem test_ret_empty_F13 :
    let t := after ((before 0x200 0x00EE []).setSt 3)
    t.halt = some ⟨.stackUnderflow, 0x00EE, 0x0200⟩ ∧ t.pc = 0x0200 ∧ t.sp = 0 ∧ t.st = 3 := by decide

theorem test_jp_v0_F16 : (after (before 0x200 0xBFFF [(0, 0xFF)])).pc = 0x10FE := by decide

theorem test_jp_v0_F18 : (after (before 0x200 0xB300 [(3, 0x77)])).pc = 0x0300 := by decide

/-! ### Registers, arithmetic, logic, shifts, random -/

theorem test_ld_imm_A1 : readReg (after (before 0x200 0x6A3C [])) 10 = 0x3C := by decide

theorem test_add_imm_A2 :
    let t := after (before 0x200 0x7001 [(0, 0xFF)])
    readReg t 0 = 0x00 ∧ readReg t 15 = 0x00 := by decide

theorem test_add_imm_A4 : readReg (after (before 0x200 0x7FFF [(15, 0x02)])) 15 = 0x01 := by decide

theorem test_ld_reg_A5 : readReg (after (before 0x200 0x8120 [(2, 0x77)])) 1 = 0x77 := by decide

theorem test_or_A6 :
    let t := after (before 0x200 0x8121 [(1, 0xF0), (2, 0x0F), (15, 1)])
    readReg t 1 = 0xFF ∧ readReg t 15 = 1 := by decide

theorem test_and_A7 :
    let t := after (before 0x200 0x8122 [(1, 0xF3), (2, 0x3F), (15, 1)])
    readReg t 1 = 0x33 ∧ readReg t 15 = 1 := by decide

theorem test_xor_A8 :
    let t := after (before 0x200 0x8123 [(1, 0xFF), (2, 0x0F), (15, 1)])
    readReg t 1 = 0xF0 ∧ readReg t 15 = 1 := by decide

theorem test_add_reg_A10 :
    let t := after (before 0x200 0x8124 [(1, 0x7F), (2, 0x80), (15, 1)])
    readReg t 1 = 0xFF ∧ readReg t 15 = 0 := by decide

theorem test_add_reg_A12 : readReg (after (before 0x200 0x8F14 [(15, 0xFF), (1, 0x01)])) 15 = 0x01 := by decide

theorem test_sub_A14 :
    let t := after (before 0x200 0x8125 [(1, 0x07), (2, 0x07), (15, 1)])
    readReg t 1 = 0x00 ∧ readReg t 15 = 0 := by decide

theorem test_sub_A16 : readReg (after (before 0x200 0x8F15 [(15, 0x05), (1, 0x09)])) 15 = 0x01 := by decide

theorem test_subn_A17 :
    let t := after (before 0x200 0x8127 [(1, 0x02), (2, 0x01)])
    readReg t 1 = 0xFF ∧ readReg t 15 = 0 := by decide

theorem test_subn_A18 :
    let t := after (before 0x200 0x8127 [(1, 0x01), (2, 0x02)])
    readReg t 1 = 0x01 ∧ readReg t 15 = 1 := by decide

theorem test_shr_A20 :
    let t := after (before 0x200 0x8126 [(1, 0x01), (2, 0xEE)])
    readReg t 1 = 0x00 ∧ readReg t 15 = 1 ∧ readReg t 2 = 0xEE := by decide

theorem test_shr_A23 : readReg (after (before 0x200 0x8F06 [(15, 0x02)])) 15 = 0x00 := by decide

theorem test_shl_A25 :
    let t := after (before 0x200 0x810E [(1, 0xFF)])
    readReg t 1 = 0xFE ∧ readReg t 15 = 1 := by decide

theorem test_shl_A27 : readReg (after (before 0x200 0x8F0E [(15, 0x40)])) 15 = 0x00 := by decide

/-- A28 and A29: the byte under the mask. -/
theorem test_rnd_mask_A29 : maskRandom 0xFF 0x0F = 0x0F ∧ maskRandom 0xA7 0x0F = 0x07 := by decide

theorem test_rnd_draws : readReg (after (before 0x200 0xC10F [])) 1 = maskRandom (Config.rnd 0) 0x0F ∧
    (after (before 0x200 0xC10F [])).draws = 1 := ⟨rfl, rfl⟩

/-! ### Display -/

theorem test_cls_V1 :
    let t := after ((before 0x200 0x00E0 [(15, 1)]).setFb (setPixel State.reset.fb 31 63 true))
    pixelAt t.fb 31 63 = false ∧ t.dirty = true ∧ t.pc = 0x0202 ∧ readReg t 15 = 1 := by decide

theorem test_drw_wraps_V2 :
    let t := after (drawing 2 0x3E 0x1F [0xFF, 0x81])
    litColumns t 31 = [0, 1, 2, 3, 4, 5, 62, 63] ∧ litColumns t 0 = [5, 62] ∧ litColumns t 1 = [] ∧ readReg t 15 = 0 ∧
      t.dirty = true := by decide

/-- S2, drawn over the row that S1 leaves. -/
theorem test_drw_collides_S2 :
    let fb := [5, 7, 9, 10].foldl (fun d c => setPixel d 6 c true) State.reset.fb
    let t := after ((drawing 1 0x05 0x06 [0x30]).setFb fb)
    litColumns t 6 = [5, 8, 9, 10] ∧ readReg t 15 = 1 := by decide

/-! ### Keys and timers -/

theorem test_skp_T2 : (after ((before 0x210 0xE29E [(2, 0x15)]).setKeys 0x0020)).pc = 0x0214 := by decide

theorem test_sknp_T2b : (after ((before 0x210 0xE2A1 [(2, 0x05)]).setKeys 0x0020)).pc = 0x0212 := by decide

theorem test_ld_dt_T3 : (after (before 0x200 0xF015 [(0, 0x0A)])).dt = 0x09 := by decide

theorem test_ld_st_T4 : (after (before 0x200 0xF018 [(0, 0x01)])).st = 0x00 := by decide

theorem test_tick_T5 :
    let t := after ((before 0x200 0x8000 []).setSt 1)
    t.dt = 0 ∧ t.st = 0 := by decide

theorem test_ld_vx_dt_T6 :
    let t := after ((before 0x200 0xF207 []).setDt 8)
    readReg t 2 = 0x08 ∧ t.dt = 0x07 := by decide

theorem test_ld_vx_k_T8 :
    let t := after ((before 0x204 0xF10A [(1, 0x55)]).setDt 8)
    t.wait = some 1 ∧ t.pc = 0x0206 ∧ readReg t 1 = 0x55 ∧ t.dt = 7 := by decide

theorem test_arbiter_T10 :
    let t := after ((((State.reset.setPc 0x206).setWait (some 1)).setKeys 0x0088).setDt 8)
    readReg t 1 = 0x03 ∧ t.wait = none ∧ t.dt = 8 ∧ t.pc = 0x0206 := by decide

theorem test_halted_T13 :
    let s := (((State.reset.setHalt (some ⟨.unknownOpcode, 0x0000, 0x0202⟩)).setDt 4).setDirty true).setKeys 0x0002
    after s = s.setDirty false := by rfl

/-! ### Index register and memory -/

theorem test_ld_i_X1 : (after (before 0x200 0xA2F0 [])).i = 0x02F0 := by decide

theorem test_add_i_X3 :
    let t := after ((before 0x200 0xF11E [(1, 1)]).setI 0x0FFF)
    t.i = 0x1000 ∧ readReg t 15 = 0 := by decide

theorem test_add_i_X4 : (after ((before 0x200 0xF11E [(1, 1)]).setI 0xFFFF)).i = 0x0000 := by decide

theorem test_ld_f_X7 : (after (before 0x200 0xF329 [(3, 0x10)])).i = 0x0050 := by decide

theorem test_ld_f_X8 : (after (before 0x200 0xF329 [(3, 0xFF)])).i = 0x04FB := by decide

theorem test_ld_b_X10 :
    let t := after ((before 0x200 0xF033 [(0, 0xFF)]).setI 0x300)
    bytesAt t 0x300 4 = [2, 5, 5, 0] ∧ t.i = 0x300 := by decide

theorem test_ld_b_X13 : bytesAt (after ((before 0x200 0xF033 [(0, 0x80)]).setI 0xFFE)) 0xFFE 3 = [1, 2, 8] := by decide

theorem test_dump_X14 :
    let t := after ((before 0x200 0xF255 [(0, 0x11), (1, 0x22), (2, 0x33), (3, 0x44)]).setI 0x400)
    bytesAt t 0x400 4 = [0x11, 0x22, 0x33, 0x00] ∧ t.i = 0x0403 := by decide

theorem test_dump_X15 :
    let t := after ((before 0x200 0xF355 [(0, 0xA0), (1, 0xA1), (2, 0xA2), (3, 0xA3)]).setI 0x0FFE)
    bytesAt t 0xFFE 2 = [0xA0, 0xA1] ∧ bytesAt t 0 3 = [0xA2, 0xA3, 0x90] ∧ t.i = 0x1002 := by decide

theorem test_load_X17 :
    let t := after ((withBytes (before 0x200 0xF265 [(3, 0x77)]) 0x300 [2, 5, 4]).setI 0x300)
    t.regs.toList.take 4 = [2, 5, 4, 0x77] ∧ t.i = 0x0303 := by decide

theorem test_load_X18 :
    let t := after (before 0x200 0xFF65 [])
    t.regs.toList = [0xF0, 0x90, 0x90, 0x90, 0xF0, 0x20, 0x60, 0x20, 0x20, 0x70, 0xF0, 0x10, 0xF0, 0x80, 0xF0, 0xF0] ∧
      t.i = 0x0010 := by decide

/-! ### The host, and memory -/

theorem test_load_program :
    bytesAt (loadProgram [0x60, 0x05] State.reset) 0x1FF 4 = [0x00, 0x60, 0x05, 0x00] := by decide

/-- H1's edge: bytes beyond 0xFFF are dropped. -/
theorem test_load_truncates_H1 :
    let m := loadBytes [] 0xFFE [0xAB, 0xAB, 0xAB]
    m = [(0xFFE, 0xAB), (0xFFF, 0xAB)] ∧ loadProgram [] State.reset = State.reset := by decide

/-- H6: a Halted core, its program and its registers, after the reset. -/
theorem test_reset_H6 :
    let s := ((before 0x300 0x6A3C [(3, 0x77)]).setHalt (some ⟨.unknownOpcode, 0x5121, 0x300⟩)).setDirty true
    hostReset s = State.reset := by decide

theorem test_keys_H3_H4 : (setAllKeys 0x8001 State.reset).keys = 0x8001 ∧ (setKey 7 true State.reset).keys = 0x0080 ∧
    (setKey 15 false (setAllKeys 0x8001 State.reset)).keys = 0x0001 := by decide

theorem test_write_of_the_reset_byte_is_not_listed :
    memWrite (memWrite [] 0x1004 0x12) 0x0004 0xF0 = [] ∧ memWrite [(3, 1)] 1 0x77 = [(1, 0x77), (3, 1)] := by decide

theorem test_with_fetch_word :
    fetchWord (State.reset.withFetchWord 16 0xD015) = 0xD015 ∧ cycleState (State.reset.withFetchWord 16 0xD015) = .running ∧
      decodeTableWord 16 0xD015 = some (.drw 0 1 5) ∧ decodeTableWord 16 0x5121 = none := by decide

/-! ### Hypotheses met -/

theorem met_DecodeOfEncode : (Instr.drw 15 15 15).wellFormed = true ∧ (Instr.jp 0xFFF).wellFormed = true ∧
    (Instr.ldImm 15 0xFF).wellFormed = true ∧ Instr.cls.wellFormed = true := by decide

theorem met_EncodeOfDecode : decodeWord 0xDFFF = some (.drw 15 15 15) ∧ decodeWord 0x1000 = some (.jp 0) := by decide

theorem met_DecodeSelects : decodeWord 0x8FFE = some (.shl 15 15) ∧
    ⟨"SHL", 0xF00F#16, 0x800E#16⟩ ∈ opcodeTable ∧ (rowOf (.shl 0 0)).hits 0x8FFE = true := by decide

theorem met_ResetState_memory : readByte State.reset 0 = 0xF0 ∧ readByte State.reset 79 = 0x80 ∧
    readByte State.reset 80 = 0x00 ∧ readByte State.reset 4095 = 0x00 := by decide

theorem met_StepRuns :
    let s := before 0x200 0x6A3C []
    let u := (before 0x200 0x2500 []).setSp 16
    s.halt = none ∧ s.wait = none ∧ decodeWord (Memory.read s.mem 0x200 ++ Memory.read s.mem 0x201) = some (.ldImm 10 0x3C) ∧
      (∃ t, exec (.ldImm 10 0x3C) { s with dirty := false } = .next t ∧ t.halt = none) ∧
      u.halt = none ∧ u.wait = none ∧ decodeWord (Memory.read u.mem 0x200 ++ Memory.read u.mem 0x201) = some (.call 0x500) ∧
      (∃ t, exec (.call 0x500) { u with dirty := false } = .next t ∧ t.halt ≠ none) :=
  ⟨rfl, rfl, by decide, ⟨_, rfl, rfl⟩, rfl, rfl, by decide, ⟨_, rfl, by decide⟩⟩

/-- Also the hypothesis of KeyLatchIsNeverWrittenByTheCore. -/
theorem met_DirtyReports : ∃ t, step (before 0x200 0x00E0 []) = .next t ∧ t.dirty = true ∧
    ∃ u, step { t with pc := 0x200 } = .next u ∧ u.dirty = true := ⟨_, rfl, rfl, _, rfl, rfl⟩

theorem met_HaltedIsAbsorbing : (State.reset.setHalt (some ⟨.unknownOpcode, 0x0000, 0x0200⟩)).halt ≠ none := by decide

theorem met_AwaitingKey :
    let s := (State.reset.setWait (some 15)).setKeys 0x8000
    let u := (State.reset.setWait (some 2)).setKeys 0x8001
    s.halt = none ∧ s.wait = some 15 ∧ (keyDown s 15 = true ∧ ∀ j < 15, keyDown s j = false) ∧
      (keyDown u 0 = true ∧ ∀ j < 0, keyDown u j = false) ∧ ∀ k < 16, keyDown (State.reset.setWait (some 2)) k = false := by
  decide

theorem met_CycleStateTransitions_running :
    let s := before 0x200 0xF00A []
    let u := (before 0x200 0x00EE [])
    cycleState s = .running ∧ cycleState (after s) = .awaitingKey 0 ∧ cycleState u = .running ∧
      cycleState (after u) = .halted := by decide

theorem met_CycleStateTransitions_awaiting :
    let s := State.reset.setWait (some 0)
    let u := s.setKeys 0x8000
    cycleState s = .awaitingKey 0 ∧ cycleState (after s) = .awaitingKey 0 ∧ cycleState u = .awaitingKey 0 ∧
      cycleState (after u) = .running ∧ cycleState (after (after (before 0x200 0x0000 []))) = .halted := by decide

theorem met_HaltsExactly :
    cycleState (before 0x200 0x5121 []) = .running ∧
      (after (before 0x200 0x5121 [])).halt = some ⟨.unknownOpcode, 0x5121, 0x200⟩ ∧
      ((before 0x200 0x2FFF []).setSp 16).halt = none ∧ ∃ t, step ((before 0x200 0x2FFF []).setSp 16) = .next t ∧
        t.halt = some ⟨.stackOverflow, 0x2FFF, 0x200⟩ :=
  ⟨by decide, by decide, rfl, _, rfl, by decide⟩

theorem met_Timers :
    let s := before 0x200 0xF015 [(0, 0)]
    cycleState s = .running ∧ (after s).halt = none ∧ decodeWord (fetchWord s) = some (.ldDtVx 0) ∧ (after s).dt = 0 ∧
      decodeWord (fetchWord (before 0x200 0xF018 [(0, 0xFF)])) = some (.ldStVx 0) ∧
      (after (before 0x200 0xF018 [(0, 0xFF)])).st = 0xFE := by decide

theorem met_JudgedOutcomes :
    judgedStep (before 0x200 0x00EE []) = .fault (.fatal ⟨.stackUnderflow, 0x00EE, 0x200⟩) ∧
      ∃ t, judgedStep (before 0x200 0xF00A []) = .next t ∧ t.wait = some 0 := ⟨rfl, _, rfl, rfl⟩

theorem met_Call : (State.reset.setSp 0).sp.val < 16 ∧ (State.reset.setSp 15).sp.val < 16 := by decide

theorem met_StackFaults : (State.reset.setSp 16).sp = 16 ∧ State.reset.sp = 0 := by decide

theorem met_Return : (State.reset.setSp 1).sp.val = (0 : Fin 16).val + 1 ∧
    (State.reset.setSp 16).sp.val = (15 : Fin 16).val + 1 := by decide

/-- With another value in the slots above sp: at the deepest call, and at the first one after a nested call. -/
theorem met_CallThenReturn :
    let s := State.reset.setSp 15
    let v := State.reset.setSp 0
    (s.sp.val < 16 ∧ ∃ t u : State, exec (.call 0x500) s = .next t ∧ u.sp = t.sp ∧ u.pc = 0x600 ∧
      ∀ j : Fin 16, j.val < t.sp.val → u.stack[j] = t.stack[j]) ∧
    (v.sp.val < 16 ∧ ∃ t u : State, exec (.call 0x500) v = .next t ∧ u.sp = t.sp ∧ u.stack[1] = 0x0502 ∧ u.stack ≠ t.stack ∧
      ∀ j : Fin 16, j.val < t.sp.val → u.stack[j] = t.stack[j]) :=
  ⟨⟨by decide, _, (nextOf (exec (.call 0x500) (State.reset.setSp 15))).setPc 0x600, rfl, rfl, rfl, fun _ _ => rfl⟩,
   by decide, _, (nextOf (exec (.call 0x500) State.reset)).setStack
      ((nextOf (exec (.call 0x500) State.reset)).stack.set 1 0x0502), rfl, rfl, by decide, by decide, by decide⟩

theorem met_Skips : readReg (before 0x200 0 [(3, 0x2A)]) 3 = 0x2A ∧ readReg (before 0x200 0 [(3, 0x2A)]) 4 ≠ 0x2A := by decide

theorem met_Add : (255 < (0xFF : Byte).toNat + (0x01 : Byte).toNat) ∧ ¬ 255 < (0x7F : Byte).toNat + (0x80 : Byte).toNat ∧
    (14 : RegIdx) ≠ 15 := by decide

theorem met_Random : (0xFE : Byte).getLsbD 0 = false ∧ (0x7F : Byte).getLsbD 7 = false := by decide

theorem met_OnlyTheNamedRegisters : (∃ t, exec (.ldVxMem 3) State.reset = .next t) ∧ writesReg (.ldVxMem 3) 4 = false ∧
    writesReg (.addReg 1 2) 2 = false := ⟨⟨_, rfl⟩, by decide, by decide⟩

theorem met_FlagInstructions : definesFlag (.addReg 15 15) ∧ definesFlag (.sub 0 1) ∧ definesFlag (.subn 0 1) ∧
    definesFlag (.shr 15 0) ∧ definesFlag (.shl 0 0) ∧ definesFlag (.drw 15 0 0) := ⟨trivial, trivial, trivial, trivial, trivial, trivial⟩

theorem met_UntouchedRegisters : (∃ t, exec (.ldMemVx 2) State.reset = .next t) ∧ readsReg (.ldMemVx 2) 3 = false ∧
    writesReg (.ldMemVx 2) 3 = false := ⟨⟨_, rfl⟩, by decide, by decide⟩

/-- A pixel of the sprite across both edges, and a pixel outside it. -/
theorem met_DrawXors :
    (1 < (2 : Nibble).toNat ∧ (0 : Fin 32).val = ((0x1F : Byte).toNat + 1) % 32 ∧
      (5 : Fin 64).val = ((0x3E : Byte).toNat + 7) % 64) ∧
    (∀ r < 2, ∀ j < 8, ¬ ((1 : Fin 32).val = ((0x1F : Byte).toNat + r) % 32 ∧
      (5 : Fin 64).val = ((0x3E : Byte).toNat + j) % 64)) := by decide

theorem met_DrawingTwice :
    ∃ t, exec (.drw 0 1 1) (drawing 1 5 6 [0xAC]) = .next t ∧ readReg t 0 = readReg (drawing 1 5 6 [0xAC]) 0 ∧
      readReg t 1 = readReg (drawing 1 5 6 [0xAC]) 1 := ⟨_, rfl, by decide, by decide⟩

theorem met_OnlyClearAndDraw :
    let s := (before 0x200 0x00E0 []).setFb (setPixel State.reset.fb 0 0 true)
    ∃ t, step s = .next t ∧ t.fb ≠ s.fb :=
  ⟨_, rfl, fun h => absurd (congrArg (fun d => pixelAt d 0 0) h) (by decide)⟩

theorem met_KeySkips : keyDown (State.reset.setKeys 0x8000) ((0xFF : Byte).toNat % 16) = true ∧
    keyDown (State.reset.setKeys 0x8000) ((0xF0 : Byte).toNat % 16) = false := by decide

theorem met_TimerInstructions :
    cycleState (before 0x200 0xF207 []) = .running ∧ decodeWord (fetchWord (before 0x200 0xF207 [])) = some (.ldVxDt 2) ∧
    decodeWord (fetchWord (before 0x200 0xF215 [])) = some (.ldDtVx 2) ∧
    decodeWord (fetchWord (before 0x200 0xF218 [])) = some (.ldStVx 2) := by decide

theorem met_TimerInstructions_sound : (∀ y, Instr.ldVxDt 2 ≠ .ldStVx y) ∧ ∃ t, exec (.ldVxDt 2) State.reset = .next t :=
  ⟨fun _ h => (nomatch h), _, rfl⟩

theorem met_FlattenedDisplay : HostMove.setAllKeys 0x8001 ≠ .reset ∧ HostMove.setAllKeys 0x8001 ≠ .runCycle ∧
    ∃ t, applyMove (.setAllKeys 0x8001) State.reset = .next t := ⟨by decide, by decide, _, rfl⟩

theorem met_AwaitKeySuspends :
    cycleState (before 0x200 0xFF0A []) = .running ∧ decodeWord (fetchWord (before 0x200 0xFF0A [])) = some (.ldVxK 15) ∧
    (∀ k < 16, (0x0000 : BitVec 16).getLsbD k = false) ∧ (0x8001 : BitVec 16).getLsbD 0 = true ∧
    (0x8000 : BitVec 16).getLsbD 15 = true ∧ ∀ j < 15, (0x8000 : BitVec 16).getLsbD j = false := by decide

theorem met_OnlyFive : ∃ t, step (before 0x200 0xA2F0 []) = .next t ∧ t.i ≠ (before 0x200 0xA2F0 []).i :=
  ⟨_, rfl, by decide⟩

theorem met_OnlyBcdAndDump :
    let s := (before 0x200 0xF033 [(0, 0xFF)]).setI 0x0FFE
    ∃ t, step s = .next t ∧ readByte t 0x1000 ≠ readByte s 0x1000 := ⟨_, rfl, by decide⟩

/-- At the last pair of bytes below 4096, and with the store wrapping to address 0. -/
theorem met_StoredWord :
    let s := (before 0x0FFE 0xF155 []).setI 0x1000
    let u := (before 0x0FFC 0xFF55 []).setI 0x0FFE
    cycleState s = .running ∧ decodeWord (fetchWord s) = some (.ldMemVx 1) ∧ s.i = s.pc + 2#16 ∧
    cycleState u = .running ∧ decodeWord (fetchWord u) = some (.ldMemVx 15) ∧ u.i = u.pc + 2#16 := by decide

/-- A Running state with memory listed and `dirty` set, and a Halted one; also for HostMovesKeepTheInvariant. -/
theorem met_StateInv :
    StateInv ((before 0x200 0x00E0 []).setDirty true) ∧
    StateInv ((State.reset.setSp 16).setHalt (some ⟨.stackOverflow, 0x2FFF, 0x0200⟩)) ∧
    ∃ t, step ((before 0x200 0x00E0 []).setDirty true) = .next t := by
  refine ⟨⟨by decide, fun h hh => (nomatch hh), fun _ => by decide⟩, ⟨by decide, fun h hh => ?_, fun hd => nomatch hd⟩, _, rfl⟩
  cases hh
  exact ⟨⟨rfl, rfl, 0xFFF, by decide⟩, rfl⟩

theorem met_EvenTargets :
    let s := (before 0x200 0xB301 [(0, 0xFF)]).setSp 16
    EvenCode s ∧ (∃ t, step s = .next t) ∧ cycleState s = .running ∧ decodeWord (fetchWord s) = some (.jpV0 0x301) ∧
      ((0x301 : Addr).toNat + (readReg s 0).toNat) % 2 = 0 := by
  refine ⟨⟨by decide, by decide⟩, ⟨_, rfl⟩, by decide, by decide, by decide⟩

/-- A waiting cycle in front of a jump-with-offset whose sum is odd. -/
theorem met_EvenTargets_waiting :
    let s := (before 0x200 0xB300 [(0, 0xFF)]).setWait (some 0)
    EvenCode s ∧ (∃ t, step s = .next t) ∧ cycleState s ≠ .running := by
  refine ⟨⟨by decide, by decide⟩, ⟨_, rfl⟩, by decide⟩

theorem met_EvenTargets_jump :
    EvenCode (before 0x200 0x1FFE []) ∧ cycleState (before 0x200 0x1FFE []) = .running ∧ decodeWord (fetchWord (before 0x200 0x1FFE [])) = some (.jp 0xFFE) ∧
      (0xFFE : Addr).toNat % 2 = 0 := ⟨⟨by decide, by decide⟩, by decide, by decide, by decide⟩

theorem met_Loader : (0x200 ≤ 0x201 ∧ 0x201 - 0x200 < [0x60#8, 0x05#8].length) ∧ ¬ 0x202 - 0x200 < [0x60#8, 0x05#8].length ∧
    ¬ 0x200 ≤ 0x1FF := by decide

theorem met_SelfJump : AtSelfJump (before 0x20C 0x120C []) := ⟨by decide, 0x20C, by decide, by decide⟩

end Sys2Proof.Tests
end

section
/-! The family of `spec/40_cycle_and_host.md`: what `dirty` says after a cycle (R121), the key-wait arbiter (R124) and the
flattened display (R137). -/

namespace Sys2Proof.Machine

/-! ### The dirty flag (R35, R121) -/

/-- The two instructions whose handlers set `dirty` (R35). -/
def setsDirty : Instr → Bool
  | .cls | .drw _ _ _ => true
  | _ => false

theorem setsDirty_iff (i : Instr) : setsDirty i = true ↔ i = .cls ∨ ∃ x y n, i = .drw x y n := by
  cases i <;> simp [setsDirty]

@[simp] theorem skipIf_dirty (c : Bool) (s : State) : (skipIf c s).dirty = s.dirty := by
  rw [skipIf_eq]

/-- CALL pushes pc and jumps where a slot is free, and raises its fatal condition where none is (R163, R242). -/
theorem execCall_cases {nnn : Addr} {s t : State} (h : execCall nnn s = .next t) :
    (s.sp = 16 ∧ t = { s with halt := some ⟨.stackOverflow, encodeWord (.call nnn), s.pc⟩ }) ∨
    (∃ hsp : s.sp.val < 16, t = { s with
      stack := s.stack.set s.sp.val s.pc hsp, sp := ⟨s.sp.val + 1, by omega⟩, pc := zextAddr nnn }) := by
  by_cases hfull : s.sp = 16
  · simp only [execCall, pushPc_of_full s hfull] at h
    exact .inl ⟨hfull, (Host.Outcome.next.inj h).symm⟩
  · have hsp : s.sp.val < 16 := by
      have := s.sp.isLt
      have : s.sp.val ≠ 16 := fun e => hfull (Fin.ext e)
      omega
    simp only [execCall, pushPc_of_lt s hsp] at h
    exact .inr ⟨hsp, (Host.Outcome.next.inj h).symm⟩

/-- RET pops and continues after the popped address where a slot is occupied, and raises its fatal condition where none
is (R161, R243). -/
theorem execRet_cases {s t : State} (h : execRet s = .next t) :
    (s.sp = 0 ∧ t = { s with halt := some ⟨.stackUnderflow, encodeWord .ret, s.pc⟩ }) ∨
    (∃ j : Fin 16, s.sp.val = j.val + 1 ∧ t = { s with sp := ⟨j.val, by omega⟩, pc := s.stack[j] + 2#16 }) := by
  by_cases hempty : s.sp = 0
  · simp only [execRet, popAddr_of_empty s hempty] at h
    exact .inl ⟨hempty, (Host.Outcome.next.inj h).symm⟩
  · have hpos : s.sp.val ≠ 0 := fun e => hempty (Fin.ext e)
    have hsp : s.sp.val = (⟨s.sp.val - 1, by omega⟩ : Fin 16).val + 1 := by simp only; omega
    simp only [execRet, popAddr_of_succ s _ hsp] at h
    exact .inr ⟨_, hsp, (Host.Outcome.next.inj h).symm⟩

/-- CLS and DRW set `dirty`; every other handler keeps it. -/
theorem exec_dirty {i : Instr} {s t : State} (h : exec i s = .next t) : t.dirty = (setsDirty i || s.dirty) := by
  cases i with
  | ret => obtain ⟨-, rfl⟩ | ⟨j, -, rfl⟩ := execRet_cases h <;> rfl
  | call nnn => obtain ⟨-, rfl⟩ | ⟨-, rfl⟩ := execCall_cases h <;> rfl
  | seImm | sneImm | seReg | sneReg | skp | sknp =>
    obtain rfl := Host.Outcome.next.inj h
    exact skipIf_dirty _ _
  | _ =>
    obtain rfl := Host.Outcome.next.inj h
    rfl

@[simp] theorem endCycle_dirty (s : State) : (endCycle s).dirty = s.dirty := by
  cases h : s.halt with
  | none => rw [endCycle_of_not_halted h]
  | some r => rw [endCycle_of_halted h]

@[simp] theorem scanKeys_dirty (r : RegIdx) (s : State) : (scanKeys r s).dirty = s.dirty := by
  cases h : firstKey s.keys with
  | none => rw [scanKeys_of_none r h]
  | some k => rw [scanKeys_of_some r h]

/-- Settles O11: the branches of `step_cases`; only a Running cycle that runs a handler can leave `dirty` set. -/
theorem dirtyReportsTheLastCycle : Obligations.DirtyReportsTheLastCycle := by
  intro s t h
  obtain ⟨hc, rfl⟩ | ⟨r, hc, rfl⟩ | ⟨hc, hd, rfl⟩ | ⟨i, u, hc, hd, he, rfl⟩ := step_cases h
  · simp [hc]
  · simp [hc]
  · simp [hd]
  · have hu : u.dirty = setsDirty i := by simpa using exec_dirty he
    simp [hc, hd, hu, setsDirty_iff]

/-! ### The key-wait arbiter (R124) -/

/-- Settles O13: the arbiter's branch of the step, with `firstKey` known in both cases. -/
theorem awaitingKeyTakesTheLowestPressedKey : Obligations.AwaitingKeyTakesTheLowestPressedKey := by
  intro s r hhalt hwait
  have hc : cycleState s = .awaitingKey r := cycleState_awaitingKey.mpr ⟨hhalt, hwait⟩
  refine ⟨fun k hdown hleast => ?_, fun hnone => ?_⟩
  · have hfirst : firstKey s.keys = some k.val := firstKey_eq_some.mpr ⟨k.isLt, hdown, hleast⟩
    rw [step_awaitingKey hc, scanKeys_of_some (s := { s with dirty := false }) r hfirst]
  · have hfirst : firstKey s.keys = none := firstKey_eq_none.mpr hnone
    rw [step_awaitingKey hc, scanKeys_of_none (s := { s with dirty := false }) r hfirst]

/-! ### The flattened display (R137) -/

/-- The byte that stands for a pixel in the flattened display. -/
def pixelByte (p : Bool) : Byte := if p then 0x01#8 else 0x00#8

/-- The list of a flattened vector of vectors. -/
theorem toList_vector_flatten {α : Type*} {m n : Nat} (v : Vector (Vector α m) n) :
    v.flatten.toList = (v.toList.map Vector.toList).flatten := by
  simp only [Vector.flatten, Vector.toList, Array.toList_flatten, Array.toList_map, List.map_map]
  rfl

/-- The flattened display is the library's flattening of the grid, pixel by pixel as bytes. -/
theorem readDisplayFlat_eq (s : State) : readDisplayFlat s = (s.fb.flatten.map pixelByte).toList := by
  rw [Vector.toList_map, toList_vector_flatten, List.map_flatten, List.map_map]
  rfl

/-- R137: element `row * 64 + col` of the flattened display. -/
theorem readDisplayFlat_getElem? (s : State) (row : Fin 32) (col : Fin 64) :
    (readDisplayFlat s)[row.val * 64 + col.val]? = some (pixelByte (pixelAt s.fb row col)) := by
  have hr := row.isLt
  have hc := col.isLt
  have hdiv : (row.val * 64 + col.val) / 64 = row.val := by omega
  have hmod : (row.val * 64 + col.val) % 64 = col.val := by omega
  have hlt : row.val * 64 + col.val < 32 * 64 := by omega
  rw [readDisplayFlat_eq, Vector.getElem?_toList, Vector.getElem?_eq_getElem hlt, Vector.getElem_map,
    Vector.getElem_flatten]
  simp only [hdiv, hmod, pixelAt, Fin.getElem_fin]

/-- No move of the host but the reset and the cycle writes `fb`. -/
theorem applyMove_fb {mv : HostMove} {s t : State} (hreset : mv ≠ .reset) (hcycle : mv ≠ .runCycle)
    (h : applyMove mv s = .next t) : t.fb = s.fb := by
  cases mv with
  | reset => exact absurd rfl hreset
  | runCycle => exact absurd rfl hcycle
  | loadProgram | setKey | setAllKeys =>
    obtain rfl := Host.Outcome.next.inj h
    rfl

/-- Settles O56: the flattened display as a flattened vector of vectors, and the frame of each host move. -/
theorem flattenedDisplayIsRowMajor : Obligations.FlattenedDisplayIsRowMajor := by
  intro s
  refine ⟨rfl, ?_, readDisplayFlat_getElem? s, fun mv t => applyMove_fb⟩
  rw [readDisplayFlat_eq, Vector.length_toList]

end Sys2Proof.Machine
end

section
/-! The family of `spec/41_control_flow.md`: the conditional skips (R160, R164 to R167). -/

namespace Sys2Proof.Machine

open Sys2Proof.Safety

/-- A change of pc is inside every footprint. -/
theorem frame_pc (f : Footprint) (s : State) (p : Word) : Frame f s { s with pc := p } :=
  ⟨fun _ _ => rfl, fun _ => rfl, fun _ => ⟨rfl, rfl⟩, fun _ _ => rfl, fun _ => rfl, fun _ => rfl, fun _ => rfl,
    fun _ => rfl, fun _ => rfl, fun _ => rfl, rfl, rfl⟩

/-- R160: a skip on any condition moves pc only. -/
theorem skipIf_frame (c : Bool) (s : State) : Frame {} s (skipIf c s) := by
  rw [skipIf_eq]
  exact frame_pc {} s _

/-- R160: pc after a skip on the condition `p`. -/
theorem skipIf_pc_of_iff {c : Bool} {p : Prop} [Decidable p] (h : c = true ↔ p) (s : State) :
    (skipIf c s).pc = if p then s.pc + 4#16 else s.pc + 2#16 := by
  simp only [skipIf_eq, h, apply_ite (s.pc + ·)]

/-- R160: pc after a skip on the failure of the condition `p`. -/
theorem skipIf_pc_of_iff_not {c : Bool} {p : Prop} [Decidable p] (h : c = true ↔ ¬ p) (s : State) :
    (skipIf c s).pc = if p then s.pc + 2#16 else s.pc + 4#16 := by
  rw [skipIf_pc_of_iff h, ite_not]

/-- Settles O23: each handler is `skipIf` on its own condition, SE on equality and SNE on its failure. -/
theorem skipsAdvanceByOneOrTwoInstructions : Obligations.SkipsAdvanceByOneOrTwoInstructions := by
  intro x y kk s
  refine ⟨⟨_, rfl, skipIf_frame _ s, ?seImm⟩, ⟨_, rfl, skipIf_frame _ s, ?sneImm⟩,
    ⟨_, rfl, skipIf_frame _ s, ?seReg⟩, ⟨_, rfl, skipIf_frame _ s, ?sneReg⟩⟩
  case seImm => exact skipIf_pc_of_iff beq_iff_eq s
  case sneImm => exact skipIf_pc_of_iff_not bne_iff_ne s
  case seReg => exact skipIf_pc_of_iff beq_iff_eq s
  case sneReg => exact skipIf_pc_of_iff_not bne_iff_ne s

end Sys2Proof.Machine
end

section
/-! The family of `spec/42_alu.md`: the instructions that write Vx and no flag (R181 to R186). Each of their handlers is
one register write and a `next`. -/

namespace Sys2Proof.Machine

open Sys2Proof.Safety

/-- What a register write and a `next` leave in the register written. -/
theorem readReg_next_writeReg_self (s : State) (x : RegIdx) (v : Byte) : readReg (next (writeReg s x v)) x = v :=
  readReg_writeReg_self s x v

/-- A register write and a `next` change that register and pc only: VF stays unless it is the register written. -/
theorem next_writeReg_frame (s : State) (x : RegIdx) (v : Byte) : Frame { regs := [x] } s (next (writeReg s x v)) :=
  ⟨fun _ hr => readReg_writeReg_of_ne s v (List.ne_of_not_mem_cons hr), fun _ => rfl, fun _ => ⟨rfl, rfl⟩,
    fun _ _ => rfl, fun _ => rfl, fun _ => rfl, fun _ => rfl, fun _ => rfl, fun _ => rfl, fun _ => rfl, rfl, rfl⟩

/-- Settles O24: the value each handler writes, read back; for the logic instructions, bit by bit. -/
theorem loadCopyAndLogicWriteVxOnly : Obligations.LoadCopyAndLogicWriteVxOnly := by
  intro x y kk s
  refine ⟨⟨_, rfl, readReg_next_writeReg_self .., rfl, next_writeReg_frame ..⟩,
    ⟨_, rfl, readReg_next_writeReg_self .., rfl, next_writeReg_frame ..⟩,
    ⟨_, rfl, rfl, next_writeReg_frame .., fun k => ?orReg⟩,
    ⟨_, rfl, rfl, next_writeReg_frame .., fun k => ?andReg⟩,
    ⟨_, rfl, rfl, next_writeReg_frame .., fun k => ?xorReg⟩⟩
  case orReg => rw [readReg_next_writeReg_self, BitVec.getLsbD_or]
  case andReg => rw [readReg_next_writeReg_self, BitVec.getLsbD_and]
  case xorReg => rw [readReg_next_writeReg_self, BitVec.getLsbD_xor]

/-- Settles O25: the sum of bytes that the handler writes is the sum of numbers modulo 2^8. -/
theorem addImmediateWrapsWithoutAFlag : Obligations.AddImmediateWrapsWithoutAFlag := by
  intro x kk s
  refine ⟨_, rfl, ?_, rfl, next_writeReg_frame ..⟩
  rw [readReg_next_writeReg_self, BitVec.toNat_add]

end Sys2Proof.Machine
end

section
/-! The family of `spec/43_display.md`: CLS (R200), whose handler is one write of `fb`, one of `dirty` and a `next`. -/

namespace Sys2Proof.Machine

open Sys2Proof.Safety

/-- A write of the display that sets `dirty`, and a `next`, change `fb`, `dirty` and pc only: VF stays. -/
theorem next_setFb_setDirty_frame (s : State) (d : Display) :
    Frame { display := true, dirty := true } s (next ((s.setFb d).setDirty true)) :=
  ⟨fun _ _ => rfl, fun _ => rfl, fun _ => ⟨rfl, rfl⟩, fun _ _ => rfl, Bool.noConfusion, fun _ => rfl, fun _ => rfl,
    fun _ => rfl, Bool.noConfusion, fun _ => rfl, rfl, rfl⟩

/-- Settles O34: the display that the handler writes is the blank one, every pixel of which is 0. -/
theorem clearZeroesEveryPixel : Obligations.ClearZeroesEveryPixel := by
  intro s
  exact ⟨_, rfl, pixelAt_blankDisplay, rfl, rfl, next_setFb_setDirty_frame s blankDisplay⟩

end Sys2Proof.Machine
end

section
/-! The family of `spec/44_keys_timers.md`: LD_VX_K (R216), whose handler is one write of `wait` and a `next`. The wait
that it begins is the arbiter's (R124). -/

namespace Sys2Proof.Machine

open Sys2Proof.Safety

/-- A write of `wait` and a `next` change `wait` and pc only. -/
theorem next_setWait_frame (s : State) (w : Option RegIdx) : Frame { wait := true } s (next (s.setWait w)) :=
  ⟨fun _ _ => rfl, fun _ => rfl, fun _ => ⟨rfl, rfl⟩, fun _ _ => rfl, fun _ => rfl, fun _ => rfl, fun _ => rfl,
    Bool.noConfusion, fun _ => rfl, fun _ => rfl, rfl, rfl⟩

/-- The state in which a Running cycle that executes LD_VX_K leaves the core (R216, R129). -/
def keyWaitBegun (x : RegIdx) (s : State) : State :=
  { s with pc := s.pc + 2#16, wait := some x, dt := tickDown s.dt, st := tickDown s.st, dirty := false }

/-- R216: the cycle that executes LD_VX_K is not itself a waiting cycle: it ticks the timers. -/
theorem step_ldVxK {s : State} {x : RegIdx} (hc : cycleState s = .running)
    (hd : decodeWord (fetchWord s) = some (.ldVxK x)) : step s = .next (keyWaitBegun x s) := by
  have he : exec (.ldVxK x) { s with dirty := false } =
      .next (next (State.setWait { s with dirty := false } (some x))) := rfl
  have hhalt : (next (State.setWait { s with dirty := false } (some x))).halt = none := (cycleState_running.mp hc).1
  rw [step_instr hc hd he, endCycle_of_not_halted hhalt]
  rfl

/-- Settles O40: the handler and its frame, the cycle of `step_ldVxK`, and the arbiter (O13) on the state that this cycle
leaves, where `dirty` is already clear, so that clearing it again changes nothing. -/
theorem awaitKeySuspendsUntilAKeyIsDown : Obligations.AwaitKeySuspendsUntilAKeyIsDown := by
  intro x s
  refine ⟨⟨_, rfl, rfl, rfl, next_setWait_frame s (some x)⟩, fun hc hd => ?_⟩
  have hhalt : s.halt = none := (cycleState_running.mp hc).1
  refine ⟨keyWaitBegun x s, step_ldVxK hc hd, cycleState_awaitingKey.mpr ⟨hhalt, rfl⟩, rfl, rfl,
    tickDown_toNat s.dt, tickDown_toNat s.st, fun bits => ?_⟩
  obtain ⟨hdown, hnone⟩ := awaitingKeyTakesTheLowestPressedKey { keyWaitBegun x s with keys := bits } x hhalt rfl
  exact ⟨hnone, fun k hk => hdown ⟨k, hk⟩⟩

end Sys2Proof.Machine
end

section
/-! The family of `spec/45_index_memory.md`: LD_I (R221), whose handler is one write of I and a `next`. -/

namespace Sys2Proof.Machine

open Sys2Proof.Safety

/-- R93: zero extension keeps the number that an address is. -/
@[simp] theorem zextAddr_toNat (nnn : Addr) : (zextAddr nnn).toNat = nnn.toNat :=
  BitVec.toNat_setWidth_of_le (by decide)

/-- A write of I and a `next` change I and pc only. -/
theorem next_setI_frame (s : State) (v : Word) : Frame { index := true } s (next (s.setI v)) :=
  ⟨fun _ _ => rfl, Bool.noConfusion, fun _ => ⟨rfl, rfl⟩, fun _ _ => rfl, fun _ => rfl, fun _ => rfl, fun _ => rfl,
    fun _ => rfl, fun _ => rfl, fun _ => rfl, rfl, rfl⟩

/-- Settles O41: the word that the handler writes to I is the zero extension of `nnn`. -/
theorem loadIndexZeroExtends : Obligations.LoadIndexZeroExtends := by
  intro nnn s
  exact ⟨_, rfl, zextAddr_toNat nnn, rfl, next_setI_frame s (zextAddr nnn)⟩

end Sys2Proof.Machine
end

section
/-! The encoding (`spec/30_encoding.md`): decode and encode are inverse to each other, and the decoder selects by the opcode
table (R94 to R96, R102). -/

namespace Sys2Proof

/-! ### Decode after encode -/

/-- R102, R95: every instruction is what its encoded word decodes to. One case per format of R92, since a format's
field lemmas are all that the decoder looks at. -/
theorem decodeWord_encodeWord (i : Instr) : decodeWord (encodeWord i) = some i := by
  cases i with
  | cls | ret => rfl
  | jp | call | ldI | jpV0 =>
    simp [encodeWord, decodeWord, fieldG_encodeA, fieldNNN_encodeA]
  | seImm | sneImm | ldImm | addImm | rnd =>
    simp [encodeWord, decodeWord, fieldG_encodeXK, fieldX_encodeXK, fieldKK_encodeXK]
  | seReg | sneReg | drw =>
    simp [encodeWord, decodeWord, fieldG_encodeXYN, fieldX_encodeXYN, fieldY_encodeXYN, fieldN_encodeXYN]
  | ldReg | orReg | andReg | xorReg | addReg | sub | shr | subn | shl =>
    simp [encodeWord, decodeWord, decodeGroup8, fieldG_encodeXYN, fieldX_encodeXYN, fieldY_encodeXYN, fieldN_encodeXYN]
  | skp | sknp =>
    simp [encodeWord, decodeWord, decodeGroupE, fieldG_encodeXK, fieldX_encodeXK, fieldKK_encodeXK]
  | ldVxDt | ldVxK | ldDtVx | ldStVx | addI | ldF | ldB | ldMemVx | ldVxMem =>
    simp [encodeWord, decodeWord, decodeGroupF, fieldG_encodeXK, fieldX_encodeXK, fieldKK_encodeXK]

/-- Settles O2: the word by `decodeWord_encodeWord`, the bytes because a word's two bytes make up the word. -/
theorem decodeOfEncodeIsTheInstruction : Obligations.DecodeOfEncodeIsTheInstruction := by
  intro i rest _
  refine ⟨decodeWord_encodeWord i, ?_⟩
  simp only [encodeBytes, List.cons_append, List.nil_append, decodeBytes, wordOfBytes_bytes, decodeWord_encodeWord]

/-! ### Encode after decode -/

/-- A word of group `g` in format A. -/
theorem encodeA_of_fieldG {op : Word} {g : Nibble} (hg : fieldG op = g) : encodeA g (fieldNNN op) = op :=
  hg ▸ encodeA_fields op

/-- A word of group `g` in format XK. -/
theorem encodeXK_of_fieldG {op : Word} {g : Nibble} (hg : fieldG op = g) : encodeXK g (fieldX op) (fieldKK op) = op :=
  hg ▸ encodeXK_fields op

/-- A word of group `g` in format XYN. -/
theorem encodeXYN_of_fieldG {op : Word} {g : Nibble} (hg : fieldG op = g) :
    encodeXYN g (fieldX op) (fieldY op) (fieldN op) = op :=
  hg ▸ encodeXYN_fields op

/-- A word of format XS: `kk` is the row's fixed `ss`. -/
theorem encodeXS_of_fields {op : Word} {g : Nibble} {ss : Byte} (hg : fieldG op = g) (hs : fieldKK op = ss) :
    encodeXK g (fieldX op) ss = op :=
  hs ▸ encodeXK_of_fieldG hg

/-- A word of format XY: `n` is the row's fixed `s`. -/
theorem encodeXY_of_fields {op : Word} {g s : Nibble} (hg : fieldG op = g) (hs : fieldN op = s) :
    encodeXYN g (fieldX op) (fieldY op) s = op :=
  hs ▸ encodeXYN_of_fieldG hg

theorem encodeWord_of_decodeGroup0 {op : Word} {i : Instr} (hg : fieldG op = 0x0#4) (h : decodeGroup0 op = some i) :
    encodeWord i = op := by
  have hop := encodeA_of_fieldG hg
  unfold decodeGroup0 at h
  split_ifs at h with h0 h1 <;> obtain rfl := Option.some.inj h
  · rw [← hop, h0]; rfl
  · rw [← hop, h1]; rfl

theorem encodeWord_of_decodeGroup8 {op : Word} {i : Instr} (hg : fieldG op = 0x8#4) (h : decodeGroup8 op = some i) :
    encodeWord i = op := by
  unfold decodeGroup8 at h
  split at h <;> cases h
  all_goals
    next hn => exact encodeXY_of_fields hg (BitVec.eq_of_toNat_eq hn)

theorem encodeWord_of_decodeGroupE {op : Word} {i : Instr} (hg : fieldG op = 0xE#4) (h : decodeGroupE op = some i) :
    encodeWord i = op := by
  unfold decodeGroupE at h
  split at h <;> cases h
  all_goals
    next hs => exact encodeXS_of_fields hg (BitVec.eq_of_toNat_eq hs)

theorem encodeWord_of_decodeGroupF {op : Word} {i : Instr} (hg : fieldG op = 0xF#4) (h : decodeGroupF op = some i) :
    encodeWord i = op := by
  unfold decodeGroupF at h
  split at h <;> cases h
  all_goals
    next hs => exact encodeXS_of_fields hg (BitVec.eq_of_toNat_eq hs)

/-- R95, R102: a recognised word is the encoding of its instruction. The cases are the groups 0 to F in order, by
format. -/
theorem encodeWord_of_decodeWord {op : Word} {i : Instr} (h : decodeWord op = some i) : encodeWord i = op := by
  unfold decodeWord at h
  split at h
  case h_1 hg => exact encodeWord_of_decodeGroup0 (BitVec.eq_of_toNat_eq hg) h
  case h_9 hg => exact encodeWord_of_decodeGroup8 (BitVec.eq_of_toNat_eq hg) h
  case h_15 hg => exact encodeWord_of_decodeGroupE (BitVec.eq_of_toNat_eq hg) h
  case h_16 hg => exact encodeWord_of_decodeGroupF (BitVec.eq_of_toNat_eq hg) h
  case h_2 hg | h_3 hg | h_11 hg | h_12 hg =>
    cases h
    exact encodeA_of_fieldG (BitVec.eq_of_toNat_eq hg)
  case h_4 hg | h_5 hg | h_7 hg | h_8 hg | h_13 hg =>
    cases h
    exact encodeXK_of_fieldG (BitVec.eq_of_toNat_eq hg)
  case h_6 hg | h_10 hg =>
    split_ifs at h with hn
    cases h
    exact encodeXY_of_fields (BitVec.eq_of_toNat_eq hg) hn
  case h_14 hg =>
    cases h
    exact encodeXYN_of_fieldG (BitVec.eq_of_toNat_eq hg)
  case h_17 => cases h

/-- Settles O3, by `encodeWord_of_decodeWord`. -/
theorem encodeOfDecodeIsTheWord : Obligations.EncodeOfDecodeIsTheWord :=
  fun _ _ => encodeWord_of_decodeWord

/-! ### The opcode table (R94) -/

theorem fieldG_of_hits {m : String} {p op : Word} (h : OpcodeRow.hits ⟨m, 0xF000#16, p⟩ op = true) :
    fieldG op = fieldG p := by
  have hp : encodeA (fieldG op) 0#12 = p := by simpa [OpcodeRow.hits, and_maskG] using h
  rw [← hp, fieldG_encodeA]

theorem fieldGN_of_hits {m : String} {p op : Word} (h : OpcodeRow.hits ⟨m, 0xF00F#16, p⟩ op = true) :
    fieldG op = fieldG p ∧ fieldN op = fieldN p := by
  have hp : encodeXYN (fieldG op) 0 0 (fieldN op) = p := by simpa [OpcodeRow.hits, and_maskGN] using h
  rw [← hp, fieldG_encodeXYN, fieldN_encodeXYN]
  exact ⟨rfl, rfl⟩

theorem fieldGKK_of_hits {m : String} {p op : Word} (h : OpcodeRow.hits ⟨m, 0xF0FF#16, p⟩ op = true) :
    fieldG op = fieldG p ∧ fieldKK op = fieldKK p := by
  have hp : encodeXK (fieldG op) 0 (fieldKK op) = p := by simpa [OpcodeRow.hits, and_maskGKK] using h
  rw [← hp, fieldG_encodeXK, fieldKK_encodeXK]
  exact ⟨rfl, rfl⟩

theorem eq_of_hits {m : String} {p op : Word} (h : OpcodeRow.hits ⟨m, 0xFFFF#16, p⟩ op = true) : op = p := by
  have hall : op &&& 0xFFFF#16 = op := BitVec.and_allOnes
  simpa [OpcodeRow.hits, hall] using h

/-- R94: a word that a row matches decodes to an instruction of that row. The cases are the rows by mask. -/
theorem rowOf_decodeWord_of_hits {op : Word} (i : Instr) (h : (rowOf i).hits op = true) :
    (decodeWord op).map rowOf = some (rowOf i) := by
  cases i with
  | cls | ret =>
    obtain rfl := eq_of_hits h
    rfl
  | jp | call | seImm | sneImm | ldImm | addImm | ldI | jpV0 | rnd | drw =>
    rw [decodeWord, fieldG_of_hits h]
    rfl
  | seReg | ldReg | orReg | andReg | xorReg | addReg | sub | shr | subn | shl | sneReg =>
    obtain ⟨hg, hn⟩ := fieldGN_of_hits h
    simp only [decodeWord, decodeGroup8, hg, hn]
    rfl
  | skp | sknp | ldVxDt | ldVxK | ldDtVx | ldStVx | addI | ldF | ldB | ldMemVx | ldVxMem =>
    obtain ⟨hg, hk⟩ := fieldGKK_of_hits h
    simp only [decodeWord, decodeGroupE, decodeGroupF, hg, hk]
    rfl

/-- One instruction for each row of R94, in the table's order. -/
def rowInstrs : List Instr :=
  [.cls, .ret, .jp 0, .call 0, .seImm 0 0, .sneImm 0 0, .seReg 0 0, .ldImm 0 0, .addImm 0 0, .ldReg 0 0, .orReg 0 0,
   .andReg 0 0, .xorReg 0 0, .addReg 0 0, .sub 0 0, .shr 0 0, .subn 0 0, .shl 0 0, .sneReg 0 0, .ldI 0, .jpV0 0, .rnd 0 0,
   .drw 0 0 0, .skp 0, .sknp 0, .ldVxDt 0, .ldVxK 0, .ldDtVx 0, .ldStVx 0, .addI 0, .ldF 0, .ldB 0, .ldMemVx 0, .ldVxMem 0]

theorem opcodeTable_eq : opcodeTable = rowInstrs.map rowOf := rfl

open Laws in
/-- The row of every instruction is in the table and matches the instruction's word. -/
theorem tableRow_statement : ∀ i : Instr, TableRow.Statement i
  | .cls => TableRow.cls
  | .ret => TableRow.ret
  | .jp nnn => TableRow.jp nnn
  | .call nnn => TableRow.call nnn
  | .seImm x kk => TableRow.seImm x kk
  | .sneImm x kk => TableRow.sneImm x kk
  | .seReg x y => TableRow.seReg x y
  | .ldImm x kk => TableRow.ldImm x kk
  | .addImm x kk => TableRow.addImm x kk
  | .ldReg x y => TableRow.ldReg x y
  | .orReg x y => TableRow.orReg x y
  | .andReg x y => TableRow.andReg x y
  | .xorReg x y => TableRow.xorReg x y
  | .addReg x y => TableRow.addReg x y
  | .sub x y => TableRow.sub x y
  | .shr x y => TableRow.shr x y
  | .subn x y => TableRow.subn x y
  | .shl x y => TableRow.shl x y
  | .sneReg x y => TableRow.sneReg x y
  | .ldI nnn => TableRow.ldI nnn
  | .jpV0 nnn => TableRow.jpV0 nnn
  | .rnd x kk => TableRow.rnd x kk
  | .drw x y n => TableRow.drw x y n
  | .skp x => TableRow.skp x
  | .sknp x => TableRow.sknp x
  | .ldVxDt x => TableRow.ldVxDt x
  | .ldVxK x => TableRow.ldVxK x
  | .ldDtVx x => TableRow.ldDtVx x
  | .ldStVx x => TableRow.ldStVx x
  | .addI x => TableRow.addI x
  | .ldF x => TableRow.ldF x
  | .ldB x => TableRow.ldB x
  | .ldMemVx x => TableRow.ldMemVx x
  | .ldVxMem x => TableRow.ldVxMem x

theorem rowOf_mem_opcodeTable (i : Instr) : rowOf i ∈ opcodeTable := by
  obtain ⟨-, hmem, -⟩ := tableRow_statement i
  exact hmem

theorem rowOf_hits_of_decodeWord {op : Word} {i : Instr} (h : decodeWord op = some i) : (rowOf i).hits op = true := by
  obtain ⟨-, -, hhits⟩ := tableRow_statement i
  rwa [encodeWord_of_decodeWord h] at hhits

/-- Settles O4: a matching row is the row of what the word decodes to (`key`), and that row matches. -/
theorem decodeSelectsByTheOpcodeTable : Obligations.DecodeSelectsByTheOpcodeTable := by
  intro op
  have key : ∀ r ∈ opcodeTable, r.hits op = true → (decodeWord op).map rowOf = some r := by
    intro r hr hhits
    obtain ⟨i, -, rfl⟩ := List.mem_map.mp (opcodeTable_eq ▸ hr)
    exact rowOf_decodeWord_of_hits i hhits
  refine ⟨⟨fun hnone r hr => ?_, fun hall => ?_⟩, fun i hi => ⟨rowOf_hits_of_decodeWord hi, fun r hr hhits => ?_⟩⟩
  · by_contra hhits
    simpa [hnone] using key r hr (by simpa using hhits)
  · cases hd : decodeWord op with
    | none => rfl
    | some i =>
      have hhits := hall (rowOf i) (rowOf_mem_opcodeTable i)
      simp [rowOf_hits_of_decodeWord hd] at hhits
  · simpa [hi, eq_comm] using key r hr hhits

/-! ### The unrecognised words (R96) -/

theorem decodeGroup0_eq_none {op : Word} :
    decodeGroup0 op = none ↔ fieldNNN op ≠ 0x0E0 ∧ fieldNNN op ≠ 0x0EE := by
  unfold decodeGroup0
  split_ifs with h0 h1 <;> simp [*]

/-- A count outside the sub-opcodes of group 8 is one of the other seven. -/
theorem decodeGroup8_eq_none {op : Word} :
    decodeGroup8 op = none ↔ fieldN op ∈ [0x8, 0x9, 0xA, 0xB, 0xC, 0xD, 0xF] := by
  simp only [List.mem_cons, List.not_mem_nil, or_false, BitVec.toNat_eq]
  have hlt := (fieldN op).isLt
  unfold decodeGroup8
  split <;> simp [*]
  simp only [imp_false] at *
  omega

theorem decodeGroupE_eq_none {op : Word} : decodeGroupE op = none ↔ fieldKK op ∉ [0x9E, 0xA1] := by
  simp only [List.mem_cons, List.not_mem_nil, or_false, BitVec.toNat_eq]
  unfold decodeGroupE
  split <;> simp_all

theorem decodeGroupF_eq_none {op : Word} : decodeGroupF op = none ↔
    fieldKK op ∉ [0x07, 0x0A, 0x15, 0x18, 0x1E, 0x29, 0x33, 0x55, 0x65] := by
  simp only [List.mem_cons, List.not_mem_nil, or_false, BitVec.toNat_eq]
  unfold decodeGroupF
  split <;> simp_all

/-- Settles O5: for each group, the test that its branch of `decodeWord` makes; there is no group past F. -/
theorem unrecognisedWordsAreExactlyThese : Obligations.UnrecognisedWordsAreExactlyThese := by
  intro op
  rw [← decodeGroup0_eq_none, ← decodeGroup8_eq_none, ← decodeGroupE_eq_none, ← decodeGroupF_eq_none]
  have hlt := (fieldG op).isLt
  simp only [BitVec.toNat_eq]
  unfold decodeWord
  split <;> simp_all
  omega

/-- Settles O1: a fact about eleven fixed words, evaluated. -/
theorem decodesWrittenWords : Obligations.DecodesWrittenWords := by
  unfold Obligations.DecodesWrittenWords
  decide

end Sys2Proof
end

section
/-! What a handler may change, said once for all 34 of them (the table of R21 and the frames of R160 to R227), and what a
cycle may do, derived from it. -/

namespace Sys2Proof.Safety

open Sys2Proof.Machine

/-! ### The parts of a frame -/

section Frame
variable {f : Footprint} {s t : State}

theorem Frame.readReg_eq (h : Frame f s t) {r : RegIdx} (hr : r ∉ f.regs) : readReg t r = readReg s r := by
  obtain ⟨hregs, -⟩ := h
  exact hregs r hr

theorem Frame.i_eq (h : Frame f s t) (hf : f.index = false) : t.i = s.i := by
  obtain ⟨-, hi, -⟩ := h
  exact hi hf

theorem Frame.readByte_eq (h : Frame f s t) {a : Nat} (ha : effAddr a ∉ f.stores) : readByte t a = readByte s a := by
  obtain ⟨-, -, -, hmem, -⟩ := h
  exact hmem a ha

theorem Frame.fb_eq (h : Frame f s t) (hf : f.display = false) : t.fb = s.fb := by
  obtain ⟨-, -, -, -, hfb, -⟩ := h
  exact hfb hf

theorem Frame.dt_eq (h : Frame f s t) (hf : f.delayTimer = false) : t.dt = s.dt := by
  obtain ⟨-, -, -, -, -, hdt, -⟩ := h
  exact hdt hf

theorem Frame.st_eq (h : Frame f s t) (hf : f.soundTimer = false) : t.st = s.st := by
  obtain ⟨-, -, -, -, -, -, hst, -⟩ := h
  exact hst hf

theorem Frame.wait_eq (h : Frame f s t) (hf : f.wait = false) : t.wait = s.wait := by
  obtain ⟨-, -, -, -, -, -, -, hwait, -⟩ := h
  exact hwait hf

theorem Frame.keys_eq (h : Frame f s t) : t.keys = s.keys := by
  obtain ⟨-, -, -, -, -, -, -, -, -, -, hkeys, -⟩ := h
  exact hkeys

theorem Frame.halt_eq (h : Frame f s t) : t.halt = s.halt := by
  obtain ⟨-, -, -, -, -, -, -, -, -, -, -, hhalt⟩ := h
  exact hhalt

end Frame

/-! ### The footprint of each instruction -/

/-- What the handler of `i`, run in `s`, may change besides pc where it raises no fatal condition. -/
def footprint (i : Instr) (s : State) : Footprint :=
  match i with
  | .jp _ | .jpV0 _ | .seImm _ _ | .sneImm _ _ | .seReg _ _ | .sneReg _ _ | .skp _ | .sknp _ => {}
  | .call _ | .ret => { stack := true }
  | .ldImm x _ | .addImm x _ | .ldReg x _ | .orReg x _ | .andReg x _ | .xorReg x _ | .ldVxDt x => { regs := [x] }
  | .addReg x _ | .sub x _ | .shr x _ | .subn x _ | .shl x _ => { regs := [x, 15] }
  | .rnd x _ => { regs := [x], draws := true }
  | .cls => { display := true, dirty := true }
  | .drw _ _ _ => { regs := [15], display := true, dirty := true }
  | .ldI _ | .addI _ | .ldF _ => { index := true }
  | .ldB _ => { stores := indexedBytes s 3 }
  | .ldMemVx x => { index := true, stores := indexedBytes s (x.val + 1) }
  | .ldVxMem x => { regs := regsUpTo x, index := true }
  | .ldVxK _ => { wait := true }
  | .ldDtVx _ => { delayTimer := true }
  | .ldStVx _ => { soundTimer := true }

@[simp] theorem mem_regsUpTo {x r : RegIdx} : r ∈ regsUpTo x ↔ r ≤ x := by
  simp [regsUpTo]

/-- The registers of the footprint are those that the write rows of R21 name. -/
theorem mem_footprint_regs (i : Instr) (s : State) (r : RegIdx) :
    r ∈ (footprint i s).regs ↔ writesReg i r = true := by
  cases i <;> simp [footprint, writesReg]

/-- R24: the instructions that may write I. -/
theorem footprint_index (i : Instr) (s : State) : (footprint i s).index = true ↔
    (∃ nnn, i = .ldI nnn) ∨ (∃ x, i = .addI x ∨ i = .ldF x ∨ i = .ldMemVx x ∨ i = .ldVxMem x) := by
  cases i <;> simp [footprint]

/-- R30: the instructions that may change the display. -/
theorem footprint_display (i : Instr) (s : State) : (footprint i s).display = setsDirty i := by
  cases i <;> rfl

/-- R66: the instructions that may store to memory. -/
theorem footprint_stores {i : Instr} {s : State} {a : Nat} (h : a ∈ (footprint i s).stores) :
    ∃ x, i = .ldB x ∨ i = .ldMemVx x := by
  cases i with
  | ldB x => exact ⟨x, .inl rfl⟩
  | ldMemVx x => exact ⟨x, .inr rfl⟩
  | _ => simp [footprint] at h

theorem footprint_delayTimer {i : Instr} (hi : ∀ x, i ≠ .ldDtVx x) (s : State) : (footprint i s).delayTimer = false := by
  cases i with
  | ldDtVx x => exact absurd rfl (hi x)
  | _ => rfl

theorem footprint_soundTimer {i : Instr} (hi : ∀ x, i ≠ .ldStVx x) (s : State) : (footprint i s).soundTimer = false := by
  cases i with
  | ldStVx x => exact absurd rfl (hi x)
  | _ => rfl

theorem footprint_wait {i : Instr} (hi : ∀ x, i ≠ .ldVxK x) (s : State) : (footprint i s).wait = false := by
  cases i with
  | ldVxK x => exact absurd rfl (hi x)
  | _ => rfl

end Sys2Proof.Safety

namespace Sys2Proof.Machine

open Sys2Proof.Safety

/-! ### The frame of each shared operation -/

/-- R21: registers outside `l` kept, and nothing else changed. -/
theorem frame_setRegs {l : List RegIdx} {s : State} {v : Vector Byte 16} (h : ∀ r, r ∉ l → v[r] = s.regs[r]) :
    Frame { regs := l } s (s.setRegs v) :=
  ⟨h, fun _ => rfl, fun _ => ⟨rfl, rfl⟩, fun _ _ => rfl, fun _ => rfl, fun _ => rfl, fun _ => rfl,
    fun _ => rfl, fun _ => rfl, fun _ => rfl, rfl, rfl⟩

/-- A result to Vx and a flag to VF, and a `next`, change those two registers and pc only. -/
theorem next_writeResultFlag_frame (s : State) (x : RegIdx) (v : Byte) (b : Bool) :
    Frame { regs := [x, 15] } s (next (writeResultFlag s x v b)) := by
  refine frame_setRegs (s := s) (v := (writeResultFlag s x v b).regs) fun r hr => ?_
  have hr : r ≠ x ∧ r ≠ 15 := by simpa using hr
  obtain ⟨hx, h15⟩ := hr
  exact (readReg_writeResultFlag s x r v b).trans (by rw [if_neg h15, if_neg hx]; rfl)

/-- RND changes Vx, the model's draw counter and pc only. -/
theorem next_consumeDraw_writeReg_frame (s : State) (x : RegIdx) (v : Byte) :
    Frame { regs := [x], draws := true } s (next (consumeDraw (writeReg s x v))) :=
  ⟨fun _ hr => readReg_writeReg_of_ne s v (List.ne_of_not_mem_cons hr), fun _ => rfl, fun _ => ⟨rfl, rfl⟩,
    fun _ _ => rfl, fun _ => rfl, fun _ => rfl, fun _ => rfl, fun _ => rfl, fun _ => rfl, Bool.noConfusion, rfl, rfl⟩

/-- DRW changes the display, VF, `dirty` and pc only. -/
theorem next_writeFlag_setFb_frame (s : State) (d : Display) (b : Bool) :
    Frame { regs := [15], display := true, dirty := true } s (next ((writeFlag (s.setFb d) b).setDirty true)) :=
  ⟨fun _ hr => readReg_writeReg_of_ne (s.setFb d) _ (List.ne_of_not_mem_cons hr), fun _ => rfl, fun _ => ⟨rfl, rfl⟩,
    fun _ _ => rfl, Bool.noConfusion, fun _ => rfl, fun _ => rfl, fun _ => rfl, Bool.noConfusion, fun _ => rfl, rfl, rfl⟩

theorem next_setDt_frame (s : State) (v : Byte) : Frame { delayTimer := true } s (next (s.setDt v)) :=
  ⟨fun _ _ => rfl, fun _ => rfl, fun _ => ⟨rfl, rfl⟩, fun _ _ => rfl, fun _ => rfl, Bool.noConfusion, fun _ => rfl,
    fun _ => rfl, fun _ => rfl, fun _ => rfl, rfl, rfl⟩

theorem next_setSt_frame (s : State) (v : Byte) : Frame { soundTimer := true } s (next (s.setSt v)) :=
  ⟨fun _ _ => rfl, fun _ => rfl, fun _ => ⟨rfl, rfl⟩, fun _ _ => rfl, fun _ => rfl, fun _ => rfl, Bool.noConfusion,
    fun _ => rfl, fun _ => rfl, fun _ => rfl, rfl, rfl⟩

/-- A push or a pop, with a jump, changes sp, the slots and pc only. -/
theorem frame_stack (s : State) (v : Vector Word 16) (p : Fin 17) (a : Word) :
    Frame { stack := true } s { s with stack := v, sp := p, pc := a } :=
  ⟨fun _ _ => rfl, fun _ => rfl, Bool.noConfusion, fun _ _ => rfl, fun _ => rfl, fun _ => rfl, fun _ => rfl,
    fun _ => rfl, fun _ => rfl, fun _ => rfl, rfl, rfl⟩

/-- R62: `k` stores from the address in I leave every byte outside `indexedBytes s k` as it was. -/
theorem memRead_storeBytes_of_not_mem (s : State) {bs : List Byte} {k a : Nat} (hk : bs.length = k)
    (h : effAddr a ∉ indexedBytes s k) :
    memRead (storeBytes s.mem (indexAddr s 0) bs) a = memRead s.mem a := by
  refine memRead_storeBytes_frame bs s.mem _ a fun j hj he => h ?_
  exact List.mem_map.mpr ⟨j, List.mem_range.mpr (hk ▸ hj), he.symm⟩

/-- LD_B changes the bytes it stores to and pc only. -/
theorem next_storeBytes_frame (s : State) {bs : List Byte} {k : Nat} (hk : bs.length = k) :
    Frame { stores := indexedBytes s k } s (next (s.setMem (storeBytes s.mem (indexAddr s 0) bs))) :=
  ⟨fun _ _ => rfl, fun _ => rfl, fun _ => ⟨rfl, rfl⟩, fun _ => memRead_storeBytes_of_not_mem s hk, fun _ => rfl,
    fun _ => rfl, fun _ => rfl, fun _ => rfl, fun _ => rfl, fun _ => rfl, rfl, rfl⟩

/-- LD_MEM_VX changes the bytes it stores to, I and pc only. -/
theorem next_storeBytes_setI_frame (s : State) {bs : List Byte} {k : Nat} (hk : bs.length = k) (v : Word) :
    Frame { index := true, stores := indexedBytes s k } s
      (next ((s.setMem (storeBytes s.mem (indexAddr s 0) bs)).setI v)) :=
  ⟨fun _ _ => rfl, Bool.noConfusion, fun _ => ⟨rfl, rfl⟩, fun _ => memRead_storeBytes_of_not_mem s hk, fun _ => rfl,
    fun _ => rfl, fun _ => rfl, fun _ => rfl, fun _ => rfl, fun _ => rfl, rfl, rfl⟩

@[simp] theorem regRange_length (s : State) (x : RegIdx) : (regRange s x).length = x.val + 1 := by
  have := x.isLt
  simp [regRange]

/-- A register after LD_VX_MEM: loaded up to Vx, kept above. -/
theorem loadRegs_getElem_regIdx (s : State) (x r : RegIdx) :
    (loadRegs s.mem (indexAddr s 0) s.regs (x.val + 1))[r] =
      if r ≤ x then readByte s (s.i.toNat + r.val) else readReg s r := by
  rw [Fin.getElem_fin, loadRegs_getElem]
  simp only [Nat.lt_succ_iff, Fin.le_def]
  rfl

/-- LD_VX_MEM changes the registers up to Vx, I and pc only. -/
theorem next_loadRegs_setI_frame (s : State) (x : RegIdx) (v : Word) :
    Frame { regs := regsUpTo x, index := true } s
      (next ((s.setRegs (loadRegs s.mem (indexAddr s 0) s.regs (x.val + 1))).setI v)) :=
  ⟨fun r hr => (loadRegs_getElem_regIdx s x r).trans (if_neg (mt mem_regsUpTo.mpr hr)), Bool.noConfusion,
    fun _ => ⟨rfl, rfl⟩, fun _ _ => rfl, fun _ => rfl, fun _ => rfl, fun _ => rfl, fun _ => rfl, fun _ => rfl,
    fun _ => rfl, rfl, rfl⟩

/-! ### What a handler can do -/

/-- R240: the fatal condition that the handler of `i` raises in `s`, if any. -/
def handlerFatal (i : Instr) (s : State) : Option FatalCode :=
  match i with
  | .call _ => if s.sp = 16 then some .stackOverflow else none
  | .ret => if s.sp = 0 then some .stackUnderflow else none
  | _ => none

theorem handlerFatal_eq_some {i : Instr} {s : State} {c : FatalCode} : handlerFatal i s = some c ↔
    (∃ nnn, i = .call nnn ∧ s.sp = 16 ∧ c = .stackOverflow) ∨ (i = .ret ∧ s.sp = 0 ∧ c = .stackUnderflow) := by
  cases i <;> simp [handlerFatal, eq_comm]

/-- R257: every handler answers a next state. -/
theorem exec_total (i : Instr) (s : State) : ∃ t, exec i s = .next t := by
  cases i with
  | ret =>
    rw [exec, execRet]
    split <;> exact ⟨_, rfl⟩
  | call nnn =>
    rw [exec, execCall]
    split <;> exact ⟨_, rfl⟩
  | _ => exact ⟨_, rfl⟩

/-- A handler raises its fatal condition and changes nothing else, or it stays inside its footprint. -/
theorem exec_cases {i : Instr} {s t : State} (h : exec i s = .next t) :
    (∃ c, handlerFatal i s = some c ∧ t = { s with halt := some ⟨c, encodeWord i, s.pc⟩ }) ∨
    (handlerFatal i s = none ∧ Frame (footprint i s) s t) := by
  cases i with
  | call nnn =>
    obtain ⟨hfull, rfl⟩ | ⟨hsp, rfl⟩ := execCall_cases h
    · exact .inl ⟨_, if_pos hfull, rfl⟩
    · exact .inr ⟨if_neg (fun hfull => by simp [hfull] at hsp), frame_stack s _ _ _⟩
  | ret =>
    obtain ⟨hempty, rfl⟩ | ⟨j, hj, rfl⟩ := execRet_cases h
    · exact .inl ⟨_, if_pos hempty, rfl⟩
    · exact .inr ⟨if_neg (fun hempty => by simp [hempty] at hj), frame_stack s s.stack _ _⟩
  | jp | jpV0 =>
    obtain rfl := Host.Outcome.next.inj h
    exact .inr ⟨rfl, frame_pc {} s _⟩
  | seImm | sneImm | seReg | sneReg | skp | sknp =>
    obtain rfl := Host.Outcome.next.inj h
    exact .inr ⟨rfl, skipIf_frame _ s⟩
  | ldImm | addImm | ldReg | orReg | andReg | xorReg | ldVxDt =>
    obtain rfl := Host.Outcome.next.inj h
    exact .inr ⟨rfl, next_writeReg_frame s _ _⟩
  | addReg | sub | shr | subn | shl =>
    obtain rfl := Host.Outcome.next.inj h
    exact .inr ⟨rfl, next_writeResultFlag_frame s _ _ _⟩
  | rnd =>
    obtain rfl := Host.Outcome.next.inj h
    exact .inr ⟨rfl, next_consumeDraw_writeReg_frame s _ _⟩
  | cls =>
    obtain rfl := Host.Outcome.next.inj h
    exact .inr ⟨rfl, next_setFb_setDirty_frame s _⟩
  | drw =>
    obtain rfl := Host.Outcome.next.inj h
    exact .inr ⟨rfl, next_writeFlag_setFb_frame s _ _⟩
  | ldI | addI | ldF =>
    obtain rfl := Host.Outcome.next.inj h
    exact .inr ⟨rfl, next_setI_frame s _⟩
  | ldB =>
    obtain rfl := Host.Outcome.next.inj h
    exact .inr ⟨rfl, next_storeBytes_frame s rfl⟩
  | ldMemVx x =>
    obtain rfl := Host.Outcome.next.inj h
    exact .inr ⟨rfl, next_storeBytes_setI_frame s (regRange_length s x) _⟩
  | ldVxMem x =>
    obtain rfl := Host.Outcome.next.inj h
    exact .inr ⟨rfl, next_loadRegs_setI_frame s x _⟩
  | ldVxK =>
    obtain rfl := Host.Outcome.next.inj h
    exact .inr ⟨rfl, next_setWait_frame s _⟩
  | ldDtVx =>
    obtain rfl := Host.Outcome.next.inj h
    exact .inr ⟨rfl, next_setDt_frame s _⟩
  | ldStVx =>
    obtain rfl := Host.Outcome.next.inj h
    exact .inr ⟨rfl, next_setSt_frame s _⟩

/-! ### What a Running cycle can do -/

/-- R240: the fatal condition that a Running cycle from `s` meets, if any. -/
def cycleFatal (s : State) : Option FatalCode :=
  match decodeWord (fetchWord s) with
  | none => some .unknownOpcode
  | some i => handlerFatal i s

theorem cycleFatal_of_none {s : State} (hd : decodeWord (fetchWord s) = none) :
    cycleFatal s = some .unknownOpcode := by
  rw [cycleFatal, hd]

theorem cycleFatal_of_some {s : State} {i : Instr} (hd : decodeWord (fetchWord s) = some i) :
    cycleFatal s = handlerFatal i s := by
  rw [cycleFatal, hd]

/-- R240: the three fatal conditions. -/
theorem cycleFatal_eq_some {s : State} {c : FatalCode} : cycleFatal s = some c ↔
    (decodeWord (fetchWord s) = none ∧ c = .unknownOpcode) ∨
    (∃ nnn, decodeWord (fetchWord s) = some (.call nnn) ∧ s.sp = 16 ∧ c = .stackOverflow) ∨
    (decodeWord (fetchWord s) = some .ret ∧ s.sp = 0 ∧ c = .stackUnderflow) := by
  cases hd : decodeWord (fetchWord s) with
  | none => simp [cycleFatal_of_none hd, eq_comm]
  | some i => simp [cycleFatal_of_some hd, handlerFatal_eq_some]

theorem cycleFatal_ne_none {s : State} : cycleFatal s ≠ none ↔
    decodeWord (fetchWord s) = none ∨ (∃ nnn, decodeWord (fetchWord s) = some (.call nnn) ∧ s.sp = 16) ∨
      (decodeWord (fetchWord s) = some .ret ∧ s.sp = 0) := by
  simp [Option.ne_none_iff_exists', cycleFatal_eq_some, exists_or]

/-- R120, R128, R129: a Running cycle meets a fatal condition, and then changes `dirty` and `halt` only, or it runs a
handler, which stays inside its footprint, and ticks both timers. -/
theorem step_running_cases {s t : State} (hc : cycleState s = .running) (h : step s = .next t) :
    (∃ c, cycleFatal s = some c ∧ t = { s with dirty := false, halt := some ⟨c, fetchWord s, s.pc⟩ }) ∨
    (∃ i u, cycleFatal s = none ∧ decodeWord (fetchWord s) = some i ∧ exec i { s with dirty := false } = .next u ∧
      Frame (footprint i s) { s with dirty := false } u ∧ t = { u with dt := tickDown u.dt, st := tickDown u.st }) := by
  obtain ⟨hc', -⟩ | ⟨r, hc', -⟩ | ⟨-, hd, rfl⟩ | ⟨i, u, -, hd, he, rfl⟩ := step_cases h
  · simp [hc] at hc'
  · simp [hc] at hc'
  · exact .inl ⟨_, cycleFatal_of_none hd, rfl⟩
  · have hf : handlerFatal i { s with dirty := false } = cycleFatal s := (cycleFatal_of_some hd).symm
    obtain ⟨c, hfatal, rfl⟩ | ⟨hnone, hframe⟩ := exec_cases he
    · refine .inl ⟨c, hf ▸ hfatal, ?_⟩
      rw [endCycle_of_halted rfl, encodeWord_of_decodeWord hd]
    · have hhalt : u.halt = none := hframe.halt_eq.trans (cycleState_running.mp hc).1
      exact .inr ⟨i, u, hf ▸ hnone, hd, he, hframe, endCycle_of_not_halted hhalt⟩

end Sys2Proof.Machine
end

section
/-! The family of `spec/40_cycle_and_host.md` and `spec/60_exceptions.md`: totality, halting, the cycle state machine and the
timers. -/

namespace Sys2Proof.Machine

open Sys2Proof.Safety

/-! ### Totality (R257) -/

theorem step_total (s : State) : ∃ t, step s = .next t := by
  cases hc : cycleState s with
  | halted => exact ⟨_, step_halted hc⟩
  | awaitingKey r => exact ⟨_, step_awaitingKey hc⟩
  | running =>
    cases hd : decodeWord (fetchWord s) with
    | none => exact ⟨_, step_unrecognised hc hd⟩
    | some i =>
      obtain ⟨u, hu⟩ := exec_total i { s with dirty := false }
      exact ⟨_, step_instr hc hd hu⟩

/-- Settles O9, by `step_total` and `exec_total`. -/
theorem everyStepAnswersANextState : Obligations.EveryStepAnswersANextState :=
  ⟨step_total, exec_total⟩

/-! ### One Running cycle (R120, R127, R129) -/

/-- The tick as natural subtraction, which has floor 0. -/
theorem tickDown_eq (v : Byte) : tickDown v = BitVec.ofNat 8 (v.toNat - 1) :=
  BitVec.eq_of_toNat_eq (by rw [tickDown_toNat, BitVec.toNat_ofNat]; have := v.isLt; omega)

/-- Settles O8: `step_instr`, and the end of the cycle in its two cases. -/
theorem stepRunsTheDecodedInstruction : Obligations.StepRunsTheDecodedInstruction := by
  intro s t i hhalt hwait hd he
  have hstep : step s = .next (endCycle t) := step_instr (cycleState_running.mpr ⟨hhalt, hwait⟩) hd he
  refine ⟨fun hrun => ?_, fun hstop => ?_⟩
  · rw [hstep, endCycle_of_not_halted hrun, tickDown_eq, tickDown_eq]
  · obtain ⟨r, hr⟩ := Option.ne_none_iff_exists'.mp hstop
    rw [hstep, endCycle_of_halted hr]

/-- The arbiter writes registers and `wait` only (R124). -/
theorem scanKeys_eq (r : RegIdx) (s : State) :
    scanKeys r s = { s with regs := (scanKeys r s).regs, wait := (scanKeys r s).wait } := by
  cases h : firstKey s.keys with
  | none => rw [scanKeys_of_none r h]
  | some k => rw [scanKeys_of_some r h]

@[simp] theorem scanKeys_halt (r : RegIdx) (s : State) : (scanKeys r s).halt = s.halt := by
  rw [scanKeys_eq]

/-! ### Halting (R240, R244, R247) -/

/-- A Running cycle halts exactly where it meets a fatal condition, with that condition's record. -/
theorem step_running_halt {s t : State} (hc : cycleState s = .running) (h : step s = .next t) :
    t.halt = (cycleFatal s).map (fun c => ⟨c, fetchWord s, s.pc⟩) := by
  obtain ⟨c, hfatal, rfl⟩ | ⟨i, u, hnone, -, -, hframe, rfl⟩ := step_running_cases hc h
  · rw [hfatal, Option.map_some]
  · rw [hnone, Option.map_none]
    exact hframe.halt_eq.trans (cycleState_running.mp hc).1

/-- Settles O15: the record by `step_running_halt`, the frame by the fatal case of `step_running_cases`. -/
theorem haltsExactlyOnTheThreeFatalConditions : Obligations.HaltsExactlyOnTheThreeFatalConditions := by
  intro s t hc h
  refine ⟨fun r => ?_, fun hstop => ?_⟩
  · obtain ⟨code, op, addr⟩ := r
    rw [step_running_halt hc h, ← cycleFatal_eq_some, Option.map_eq_some_iff]
    constructor
    · rintro ⟨c, hfatal, ⟨⟩⟩
      exact ⟨rfl, rfl, hfatal⟩
    · rintro ⟨rfl, rfl, hfatal⟩
      exact ⟨code, hfatal, rfl⟩
  · obtain ⟨c, -, rfl⟩ | ⟨i, u, -, -, -, hframe, rfl⟩ := step_running_cases hc h
    · rfl
    · exact absurd (hframe.halt_eq.trans (cycleState_running.mp hc).1) hstop

/-- What a cycle leaves in `halt`, from any state: an AwaitingKey cycle never halts, and a Halted one stays so. -/
theorem step_halt_ne_none {s t : State} (h : step s = .next t) : t.halt ≠ none ↔
    cycleState s = .halted ∨ (cycleState s = .running ∧ cycleFatal s ≠ none) := by
  cases hc : cycleState s with
  | halted =>
    obtain rfl := Host.Outcome.next.inj ((step_halted hc).symm.trans h)
    simpa using cycleState_halted.mp hc
  | awaitingKey r =>
    obtain rfl := Host.Outcome.next.inj ((step_awaitingKey hc).symm.trans h)
    simpa using (cycleState_awaitingKey.mp hc).1
  | running => simp [step_running_halt hc h]

/-! ### The reading of R257 -/

theorem judgedStep_of_halt {s t : State} {r : HaltRecord} (h : step s = .next t) (hr : t.halt = some r) :
    judgedStep s = .fault (.fatal r) := by
  simp only [judgedStep, h, hr]

theorem judgedStep_of_not_halted {s t : State} (h : step s = .next t) (hr : t.halt = none) :
    judgedStep s = .next t := by
  simp only [judgedStep, h, hr]

/-- Settles O10: the two cases of `halt` in the state that the step leaves. -/
theorem judgedOutcomesOfACycle : Obligations.JudgedOutcomesOfACycle := by
  intro s
  obtain ⟨t, h⟩ := step_total s
  rw [← cycleFatal_ne_none, ← step_halt_ne_none h]
  cases hr : t.halt with
  | none => simp [judgedStep_of_not_halted h hr, h]
  | some r => simp [judgedStep_of_halt h hr, h, hr]

/-! ### Halted is absorbing (R122) -/

/-- Settles O12, by induction on the number of cycles: the first one clears `dirty`, the others find it clear. -/
theorem haltedIsAbsorbing : Obligations.HaltedIsAbsorbing := by
  intro k
  induction k with
  | zero => exact fun s hs => core_run_succ 0 (step_halted (cycleState_halted.mpr hs))
  | succ k ih =>
    intro s hs
    rw [core_run_succ (k + 1) (step_halted (cycleState_halted.mpr hs))]
    exact ih { s with dirty := false } hs

/-! ### The cycle state machine (R123) -/

/-- From no pending wait, a handler begins one exactly where it is that of LD_VX_K. -/
theorem exec_wait_eq_some {i : Instr} {s t : State} (hs : s.wait = none) (h : exec i s = .next t) (x : RegIdx) :
    t.wait = some x ↔ i = .ldVxK x := by
  by_cases hi : ∃ y, i = .ldVxK y
  · obtain ⟨y, rfl⟩ := hi
    obtain rfl := Host.Outcome.next.inj h
    simp [next]
  · have hne : i ≠ .ldVxK x := fun he => hi ⟨x, he⟩
    have hkeep : t.wait = s.wait := by
      obtain ⟨c, -, rfl⟩ | ⟨-, hframe⟩ := exec_cases h
      · rfl
      · exact hframe.wait_eq (footprint_wait (not_exists.mp hi) s)
    simp [hkeep, hs, hne]

/-- R123: the row of a Running cycle that begins a key wait. -/
theorem step_running_awaitingKey {s t : State} (hc : cycleState s = .running) (h : step s = .next t) (x : RegIdx) :
    cycleState t = .awaitingKey x ↔ decodeWord (fetchWord s) = some (.ldVxK x) := by
  obtain ⟨hhalt, hwait⟩ := cycleState_running.mp hc
  rw [cycleState_awaitingKey]
  obtain ⟨c, hfatal, rfl⟩ | ⟨i, u, hnone, hd, he, hframe, rfl⟩ := step_running_cases hc h
  · have hne : decodeWord (fetchWord s) ≠ some (.ldVxK x) := fun hd => by
      simp [cycleFatal_of_some hd, handlerFatal] at hfatal
    simp [hne]
  · have hu : u.halt = none := hframe.halt_eq.trans hhalt
    rw [hd, Option.some.injEq, ← exec_wait_eq_some (s := { s with dirty := false }) hwait he x]
    exact and_iff_right hu

/-- R123: the rows of an AwaitingKey cycle. -/
theorem cycleState_scanKeys {s : State} {r : RegIdx} (hc : cycleState s = .awaitingKey r) :
    cycleState (scanKeys r { s with dirty := false }) =
      if ∃ k : Fin 16, keyDown s k = true then .running else .awaitingKey r := by
  obtain ⟨hhalt, hwait⟩ := cycleState_awaitingKey.mp hc
  cases hk : firstKey s.keys with
  | none =>
    have hup : ¬ ∃ k : Fin 16, keyDown s k = true := by
      rintro ⟨k, hdown⟩
      exact Bool.eq_false_iff.mp (firstKey_eq_none.mp hk k.val k.isLt) hdown
    rw [scanKeys_of_none (s := { s with dirty := false }) r hk, if_neg hup]
    exact cycleState_awaitingKey.mpr ⟨hhalt, hwait⟩
  | some k =>
    obtain ⟨hlt, hdown, -⟩ := firstKey_eq_some.mp hk
    rw [scanKeys_of_some (s := { s with dirty := false }) r hk, if_pos ⟨⟨k, hlt⟩, hdown⟩]
    exact cycleState_running.mpr ⟨hhalt, rfl⟩

/-- Settles O14, a row of R123 at a time. -/
theorem cycleStateTransitions : Obligations.CycleStateTransitions := by
  intro s t h
  refine ⟨fun hc => ⟨step_running_awaitingKey hc h, ?_⟩, fun r hc => ?_, fun hc => ?_⟩
  · rw [← cycleFatal_ne_none, cycleState_halted, step_halt_ne_none h]
    simp [hc]
  · obtain rfl := Host.Outcome.next.inj ((step_awaitingKey hc).symm.trans h)
    exact cycleState_scanKeys hc
  · exact cycleState_halted.mpr ((step_halt_ne_none h).mpr (.inl hc))

/-! ### The timers (R129) -/

/-- A cycle that does not complete an instruction leaves the timers alone. -/
theorem step_timers_of_not_completed {s t : State} (h : step s = .next t)
    (hn : cycleState s ≠ .running ∨ t.halt ≠ none) : t.dt = s.dt ∧ t.st = s.st := by
  obtain ⟨-, rfl⟩ | ⟨r, -, rfl⟩ | ⟨-, -, rfl⟩ | ⟨i, u, hc, -, -, -⟩ := step_cases h
  · exact ⟨rfl, rfl⟩
  · rw [scanKeys_eq]
    exact ⟨rfl, rfl⟩
  · exact ⟨rfl, rfl⟩
  · have hstop : t.halt ≠ none := hn.resolve_left (not_not.mpr hc)
    obtain ⟨-, hkeep⟩ := haltsExactlyOnTheThreeFatalConditions s t hc h
    rw [hkeep hstop]
    exact ⟨rfl, rfl⟩

/-- Settles O16: a completed cycle ends with the tick of what the handler left in each timer, and the handler wrote a
timer only where its footprint says so. -/
theorem timersTickOncePerExecutedInstruction : Obligations.TimersTickOncePerExecutedInstruction := by
  intro s t h
  refine ⟨step_timers_of_not_completed h, fun i hc hrun hd => ?_⟩
  obtain ⟨c, -, rfl⟩ | ⟨i', u, -, hd', he, hframe, rfl⟩ := step_running_cases hc h
  · simp at hrun
  obtain rfl : i' = i := Option.some.inj (hd'.symm.trans hd)
  simp only [tickDown_toNat]
  refine ⟨?setDt, fun hi => ?keepDt, ?setSt, fun hi => ?keepSt, ?getDt⟩
  case keepDt =>
    have hkeep : u.dt = s.dt := hframe.dt_eq (footprint_delayTimer hi s)
    rw [hkeep]
  case keepSt =>
    have hkeep : u.st = s.st := hframe.st_eq (footprint_soundTimer hi s)
    rw [hkeep]
  case setDt | setSt =>
    rintro x rfl
    obtain rfl := Host.Outcome.next.inj he
    rfl
  case getDt =>
    rintro x rfl
    obtain rfl := Host.Outcome.next.inj he
    exact readReg_next_writeReg_self _ x s.dt

/-! ### The jump to itself (R141) -/

/-- A cycle at a jump to itself only clears `dirty` and ticks the timers. -/
theorem step_atSelfJump {s : State} (h : AtSelfJump s) :
    step s = .next { s with dirty := false, dt := tickDown s.dt, st := tickDown s.st } := by
  obtain ⟨hc, nnn, hd, hpc⟩ := h
  have htarget : zextAddr nnn = s.pc := BitVec.eq_of_toNat_eq ((zextAddr_toNat nnn).trans hpc)
  have he : exec (.jp nnn) { s with dirty := false } = .next { s with dirty := false } := by
    rw [exec, execJp, htarget]
    rfl
  rw [step_instr hc hd he]
  exact congrArg _ (endCycle_of_not_halted (cycleState_running.mp hc).1)

/-- Settles O57, by induction on the number of cycles: the state after the first is at a jump to itself again. -/
theorem selfJumpOnlyTicksTheTimers : Obligations.SelfJumpOnlyTicksTheTimers := by
  intro k
  induction k with
  | zero =>
    intro s hs
    rw [core_run_succ 0 (step_atSelfJump hs), tickDown_eq, tickDown_eq]
    rfl
  | succ k ih =>
    intro s hs
    have hs' : AtSelfJump { s with dirty := false, dt := tickDown s.dt, st := tickDown s.st } := hs
    rw [core_run_succ (k + 1) (step_atSelfJump hs), ih _ hs']
    simp only [tickDown_toNat, Nat.sub_sub, Nat.add_comm 1]

/-! ### The reset with no program (R272, R281) -/

/-- Settles O7: what the host's reset leaves is Running, and the two bytes at 0x200 are no instruction. -/
theorem resetWithoutAProgramHalts : Obligations.ResetWithoutAProgramHalts := by
  intro s
  have hc : cycleState (hostReset s) = .running := cycleState_running.mpr ⟨rfl, rfl⟩
  have hfetch : fetchWord (hostReset s) = 0x0000#16 := by
    have hzero : ∀ a, 0x200 ≤ a → a < 4096 → readByte (hostReset s) a = 0x00#8 := fun a ha hlt =>
      (congrArg resetByte (effAddr_of_lt hlt)).trans (resetByte_program ha)
    have hpc : (hostReset s).pc.toNat = 0x200 := rfl
    rw [fetchWord, hpc, hzero _ (by decide) (by decide), hzero _ (by decide) (by decide)]
    rfl
  refine ⟨?_, hc⟩
  rw [step_unrecognised hc (by rw [hfetch]; rfl), hfetch]
  rfl

end Sys2Proof.Machine
end

section
/-! What every cycle keeps (`spec/10_state.md`, `spec/20_memory.md`): the fields that few instructions write, the
invariant `StateInv`, and the evenness of pc (R26). -/

namespace Sys2Proof.Machine

open Sys2Proof.Safety

/-! ### The fields that few cycles write -/

/-- A cycle leaves I, the display, memory and the key latch alone, or it is a Running one that runs a handler, which
stays inside its footprint, and ticks the timers. -/
theorem step_frame_cases {s t : State} (h : step s = .next t) :
    (t.i = s.i ∧ t.fb = s.fb ∧ t.mem = s.mem ∧ t.keys = s.keys) ∨
    (∃ i u, cycleState s = .running ∧ decodeWord (fetchWord s) = some i ∧
      Frame (footprint i s) { s with dirty := false } u ∧ t = { u with dt := tickDown u.dt, st := tickDown u.st }) := by
  cases hc : cycleState s with
  | halted =>
    obtain rfl := Host.Outcome.next.inj ((step_halted hc).symm.trans h)
    exact .inl ⟨rfl, rfl, rfl, rfl⟩
  | awaitingKey r =>
    obtain rfl := Host.Outcome.next.inj ((step_awaitingKey hc).symm.trans h)
    rw [scanKeys_eq]
    exact .inl ⟨rfl, rfl, rfl, rfl⟩
  | running =>
    obtain ⟨c, -, rfl⟩ | ⟨i, u, -, hd, -, hframe, rfl⟩ := step_running_cases hc h
    · exact .inl ⟨rfl, rfl, rfl, rfl⟩
    · exact .inr ⟨i, u, rfl, hd, hframe, rfl⟩

/-- Settles O17: the key latch is in no footprint. -/
theorem keyLatchIsNeverWrittenByTheCore : Obligations.KeyLatchIsNeverWrittenByTheCore := by
  intro s t h
  obtain ⟨-, -, -, hkeys⟩ | ⟨i, u, -, -, hframe, rfl⟩ := step_frame_cases h
  · exact hkeys
  · exact hframe.keys_eq

/-- Settles O37: the display is in the footprints of CLS and DRW only. -/
theorem onlyClearAndDrawMutateTheDisplay : Obligations.OnlyClearAndDrawMutateTheDisplay := by
  intro s t h hne
  obtain ⟨-, hfb, -, -⟩ | ⟨i, u, hc, hd, hframe, rfl⟩ := step_frame_cases h
  · exact absurd hfb hne
  · have hset : setsDirty i = true := by
      by_contra hno
      exact hne (hframe.fb_eq ((footprint_display i s).trans (Bool.eq_false_iff.mpr hno)))
    simpa [hc, hd] using (setsDirty_iff i).mp hset

/-- Settles O47: I is in the footprints of the five instructions only. -/
theorem onlyFiveInstructionsWriteTheIndex : Obligations.OnlyFiveInstructionsWriteTheIndex := by
  intro s t h hne
  obtain ⟨hi, -, -, -⟩ | ⟨i, u, hc, hd, hframe, rfl⟩ := step_frame_cases h
  · exact absurd hi hne
  · refine ⟨hc, i, hd, (footprint_index i s).mp ?_⟩
    by_contra hno
    exact hne (hframe.i_eq (Bool.eq_false_iff.mpr hno))

/-- Settles O48: only LD_B and LD_MEM_VX have stores in their footprints. -/
theorem onlyBcdAndDumpWriteMemory : Obligations.OnlyBcdAndDumpWriteMemory := by
  intro s t a h hne
  obtain ⟨-, -, hmem, -⟩ | ⟨i, u, hc, hd, hframe, rfl⟩ := step_frame_cases h
  · exact absurd (congrArg (memRead · a) hmem) hne
  · have hstored : effAddr a ∈ (footprint i s).stores := by
      by_contra hno
      exact hne (hframe.readByte_eq hno)
    obtain ⟨x, rfl | rfl⟩ := footprint_stores hstored
    · exact ⟨hc, x, .inl hd⟩
    · exact ⟨hc, x, .inr hd⟩

/-! ### The invariant of the state -/

/-- Every handler keeps the canonical form of memory: the two that write it do so by `storeBytes`. -/
theorem exec_mem_wf {i : Instr} {s t : State} (h : exec i s = .next t) (hm : Memory.wf s.mem = true) :
    Memory.wf t.mem = true := by
  cases i with
  | call nnn => obtain ⟨-, rfl⟩ | ⟨-, rfl⟩ := execCall_cases h <;> exact hm
  | ret => obtain ⟨-, rfl⟩ | ⟨j, -, rfl⟩ := execRet_cases h <;> exact hm
  | ldB | ldMemVx =>
    obtain rfl := Host.Outcome.next.inj h
    exact storeBytes_wf _ _ hm
  | seImm | sneImm | seReg | sneReg | skp | sknp =>
    obtain rfl := Host.Outcome.next.inj h
    rw [skipIf_eq]
    exact hm
  | _ =>
    obtain rfl := Host.Outcome.next.inj h
    exact hm

/-- The record of a fatal condition that a Running cycle meets is true of the state that it leaves. -/
theorem haltRecordTrue_of_cycleFatal {s t : State} {c : FatalCode} (hf : cycleFatal s = some c) (hpc : t.pc = s.pc)
    (hsp : t.sp = s.sp) : HaltRecordTrue t ⟨c, fetchWord s, s.pc⟩ := by
  obtain ⟨hd, rfl⟩ | ⟨nnn, hd, hfull, rfl⟩ | ⟨hd, hempty, rfl⟩ := cycleFatal_eq_some.mp hf
  · exact ⟨hpc.symm, hd⟩
  · exact ⟨hpc.symm, hsp.trans hfull, nnn, hd⟩
  · exact ⟨hpc.symm, hsp.trans hempty, (encodeWord_of_decodeWord hd).symm⟩

theorem stateInv_mem_wf {s : State} (h : StateInv s) : Memory.wf s.mem = true := by
  obtain ⟨hm, -⟩ := h
  exact hm

theorem stateInv_of_not_halted {t : State} (hm : Memory.wf t.mem = true) (hhalt : t.halt = none)
    (hdirty : t.dirty = true → t.wait = none) : StateInv t :=
  ⟨hm, fun _ hr => absurd (hhalt.symm.trans hr) (by simp), fun hd => cycleState_running.mpr ⟨hhalt, hdirty hd⟩⟩

/-- What changes none of pc, sp, `halt` and `wait`, and sets no `dirty`, keeps the invariant. -/
theorem stateInv_of_same_control {s t : State} (h : StateInv s) (hm : Memory.wf t.mem = true) (hpc : t.pc = s.pc)
    (hsp : t.sp = s.sp) (hhalt : t.halt = s.halt) (hwait : t.wait = s.wait) (hdirty : t.dirty = true → s.dirty = true) :
    StateInv t := by
  obtain ⟨-, hrec, hrun⟩ := h
  refine ⟨hm, fun r hr => ?_, fun hd => ?_⟩
  · obtain ⟨htrue, hnone⟩ := hrec r (hhalt ▸ hr)
    refine ⟨?_, hwait.trans hnone⟩
    unfold HaltRecordTrue at htrue ⊢
    rwa [hpc, hsp]
  · rw [cycleState_running, hhalt, hwait]
    exact cycleState_running.mp (hrun (hdirty hd))

/-- A Running cycle keeps the invariant. -/
theorem stateInv_step_running {s t : State} (hm : Memory.wf s.mem = true) (hc : cycleState s = .running)
    (h : step s = .next t) : StateInv t := by
  obtain ⟨hhalt, hwait⟩ := cycleState_running.mp hc
  obtain ⟨c, hfatal, rfl⟩ | ⟨i, u, -, hd, he, hframe, rfl⟩ := step_running_cases hc h
  · refine ⟨hm, ?_, Bool.noConfusion⟩
    rintro r ⟨⟩
    exact ⟨haltRecordTrue_of_cycleFatal hfatal rfl rfl, hwait⟩
  · have hmem : Memory.wf u.mem = true := exec_mem_wf he hm
    refine stateInv_of_not_halted hmem (hframe.halt_eq.trans hhalt) fun hdirty => ?_
    have hset : setsDirty i = true := by simpa using (exec_dirty he).symm.trans hdirty
    have hkeep : ∀ x, i ≠ .ldVxK x := by
      rintro x rfl
      cases hset
    exact (hframe.wait_eq (footprint_wait hkeep s)).trans hwait

/-- Settles O50, by the branches of the cycle. -/
theorem everyStepKeepsTheInvariant : Obligations.EveryStepKeepsTheInvariant := by
  intro s t hinv h
  have hm : Memory.wf s.mem = true := stateInv_mem_wf hinv
  cases hc : cycleState s with
  | halted =>
    obtain rfl := Host.Outcome.next.inj ((step_halted hc).symm.trans h)
    exact stateInv_of_same_control hinv hm rfl rfl rfl rfl Bool.noConfusion
  | awaitingKey r =>
    obtain ⟨hhalt, -⟩ := cycleState_awaitingKey.mp hc
    obtain rfl := Host.Outcome.next.inj ((step_awaitingKey hc).symm.trans h)
    rw [scanKeys_eq]
    exact stateInv_of_not_halted hm hhalt Bool.noConfusion
  | running => exact stateInv_step_running hm hc h

/-- Settles O51: the reset state lists no memory, is not halted and is not dirty. -/
theorem resetMeetsTheInvariant : Obligations.ResetMeetsTheInvariant :=
  stateInv_of_not_halted Memory.wf_nil rfl Bool.noConfusion

/-- Settles O52: the reset by O51's argument, the cycle by O50, the other moves because they change memory or the key
latch only. -/
theorem hostMovesKeepTheInvariant : Obligations.HostMovesKeepTheInvariant := by
  intro mv s hinv
  have hm : Memory.wf s.mem = true := stateInv_mem_wf hinv
  cases mv with
  | reset => exact ⟨_, rfl, stateInv_of_not_halted Memory.wf_nil rfl Bool.noConfusion⟩
  | loadProgram bytes =>
    exact ⟨_, rfl, stateInv_of_same_control hinv (loadBytes_wf bytes _ hm) rfl rfl rfl rfl id⟩
  | setKey | setAllKeys => exact ⟨_, rfl, stateInv_of_same_control hinv hm rfl rfl rfl rfl id⟩
  | runCycle =>
    obtain ⟨t, h⟩ := step_total s
    exact ⟨t, h, everyStepKeepsTheInvariant s t hinv h⟩

/-! ### Even addresses (R26) -/

theorem even_add_two {p : Word} (h : p.toNat % 2 = 0) : (p + 2#16).toNat % 2 = 0 := by
  rw [BitVec.toNat_add]
  simp
  omega

theorem even_add_four {p : Word} (h : p.toNat % 2 = 0) : (p + 4#16).toNat % 2 = 0 := by
  rw [BitVec.toNat_add]
  simp
  omega

theorem skipIf_pc_even (c : Bool) {s : State} (h : s.pc.toNat % 2 = 0) : (skipIf c s).pc.toNat % 2 = 0 := by
  cases c with
  | true => exact even_add_four h
  | false => exact even_add_two h

/-- R93: zero extension keeps the number that a byte is. -/
@[simp] theorem zextByte_toNat (v : Byte) : (zextByte v).toNat = v.toNat :=
  BitVec.toNat_setWidth_of_le (by decide)

/-- R168: the target of JP_V0 does not wrap. -/
theorem zextAddr_add_zextByte_toNat (nnn : Addr) (v : Byte) :
    (zextAddr nnn + zextByte v).toNat = nnn.toNat + v.toNat := by
  have := nnn.isLt
  have := v.isLt
  rw [BitVec.toNat_add, zextAddr_toNat, zextByte_toNat, Nat.mod_eq_of_lt (by omega)]

/-- R27: a slot after a push. -/
theorem pushed_slot (s : State) (hsp : s.sp.val < 16) (j : Fin 16) :
    (s.stack.set s.sp.val s.pc hsp)[j] = if j.val = s.sp.val then s.pc else s.stack[j] := by
  simp only [Fin.getElem_fin, Vector.getElem_set, eq_comm]

/-- What moves pc to an even address and leaves the stack alone keeps code even. -/
theorem evenCode_of_pc {s t : State} (h : EvenCode s) (hpc : t.pc.toNat % 2 = 0) (hstack : t.sp = s.sp ∧ t.stack = s.stack) :
    EvenCode t := by
  obtain ⟨-, hslots⟩ := h
  obtain ⟨hsp, hstk⟩ := hstack
  refine ⟨hpc, fun j hj => ?_⟩
  simp only [hstk]
  exact hslots j (hsp ▸ hj)

/-- R26: every handler keeps code even, JP, CALL and JP_V0 where their targets are. -/
theorem exec_evenCode {i : Instr} {s t : State} (h : exec i s = .next t) (heven : EvenCode s)
    (hjump : ∀ nnn, i = .jp nnn ∨ i = .call nnn → nnn.toNat % 2 = 0)
    (hoffset : ∀ nnn, i = .jpV0 nnn → (nnn.toNat + (readReg s 0).toNat) % 2 = 0) : EvenCode t := by
  have heven' := heven
  obtain ⟨hpc, hslots⟩ := heven'
  cases i with
  | jp nnn =>
    obtain rfl := Host.Outcome.next.inj h
    refine evenCode_of_pc heven ?_ ⟨rfl, rfl⟩
    simpa using hjump nnn (.inl rfl)
  | jpV0 nnn =>
    obtain rfl := Host.Outcome.next.inj h
    refine evenCode_of_pc heven ?_ ⟨rfl, rfl⟩
    exact (zextAddr_add_zextByte_toNat nnn _).symm ▸ hoffset nnn rfl
  | call nnn =>
    obtain ⟨-, rfl⟩ | ⟨hsp, rfl⟩ := execCall_cases h
    · exact heven
    · refine ⟨by simpa using hjump nnn (.inr rfl), fun j hj => ?_⟩
      have hj : j.val < s.sp.val + 1 := hj
      simp only [pushed_slot]
      split
      · exact hpc
      · exact hslots j (by omega)
  | ret =>
    obtain ⟨-, rfl⟩ | ⟨j, hj, rfl⟩ := execRet_cases h
    · exact heven
    · refine ⟨even_add_two (hslots j (by omega)), fun k hk => hslots k ?_⟩
      simp at hk
      omega
  | seImm | sneImm | seReg | sneReg | skp | sknp =>
    obtain rfl := Host.Outcome.next.inj h
    exact evenCode_of_pc heven (skipIf_pc_even _ hpc) (by rw [skipIf_eq]; exact ⟨rfl, rfl⟩)
  | _ =>
    obtain rfl := Host.Outcome.next.inj h
    exact evenCode_of_pc heven (even_add_two hpc) ⟨rfl, rfl⟩

/-- Settles O53: a cycle that completes no instruction keeps pc and the stack, and one that does is its handler's. -/
theorem evenTargetsKeepPcEven : Obligations.EvenTargetsKeepPcEven := by
  intro s t heven h hjump hoffset
  cases hc : cycleState s with
  | halted =>
    obtain rfl := Host.Outcome.next.inj ((step_halted hc).symm.trans h)
    exact heven
  | awaitingKey r =>
    obtain rfl := Host.Outcome.next.inj ((step_awaitingKey hc).symm.trans h)
    rw [scanKeys_eq]
    exact heven
  | running =>
    obtain ⟨c, -, rfl⟩ | ⟨i, u, -, hd, he, -, rfl⟩ := step_running_cases hc h
    · exact heven
    · have hu : EvenCode u := exec_evenCode he heven (fun nnn hi => hjump nnn hc (by simpa [hd] using hi))
        (fun nnn hi => hoffset nnn hc (hi ▸ hd))
      exact hu

end Sys2Proof.Machine
end

section
/-! The families of `spec/41_control_flow.md`, `spec/42_alu.md`, `spec/44_keys_timers.md` and `spec/45_index_memory.md`: the
jumps and the stack, the flag instructions, the key skips, the timers, and the instructions over I and memory. Each
handler is one of the shared operations whose frames stand above. -/

namespace Sys2Proof.Machine

open Sys2Proof.Safety

/-! ### Jumps and the stack (R161 to R163, R168) -/

/-- Settles O18: the word that each handler writes to pc, as a number. -/
theorem jumpsSetPc : Obligations.JumpsSetPc := by
  intro nnn s
  exact ⟨⟨_, rfl, zextAddr_toNat nnn, frame_pc {} s _⟩,
    ⟨_, rfl, zextAddr_add_zextByte_toNat nnn _, frame_pc {} s _⟩⟩

theorem execCall_of_lt (nnn : Addr) (s : State) (hsp : s.sp.val < 16) : exec (.call nnn) s = .next { s with
    stack := s.stack.set s.sp.val s.pc hsp, sp := ⟨s.sp.val + 1, by omega⟩, pc := zextAddr nnn } := by
  simp only [exec, execCall, pushPc_of_lt s hsp]
  rfl

theorem execRet_of_succ (s : State) (j : Fin 16) (hj : s.sp.val = j.val + 1) :
    exec .ret s = .next { s with sp := ⟨j.val, by omega⟩, pc := s.stack[j] + 2#16 } := by
  simp only [exec, execRet, popAddr_of_succ s j hj]
  rfl

theorem execCall_of_full (nnn : Addr) (s : State) (hfull : s.sp = 16) :
    exec (.call nnn) s = .next { s with halt := some ⟨.stackOverflow, encodeWord (.call nnn), s.pc⟩ } := by
  simp only [exec, execCall, pushPc_of_full s hfull]
  rfl

theorem execRet_of_empty (s : State) (hempty : s.sp = 0) :
    exec .ret s = .next { s with halt := some ⟨.stackUnderflow, encodeWord .ret, s.pc⟩ } := by
  simp only [exec, execRet, popAddr_of_empty s hempty]
  rfl

/-- Settles O19: the state that `execCall_of_lt` gives. -/
theorem callPushesItsOwnAddress : Obligations.CallPushesItsOwnAddress := by
  intro nnn s hsp
  exact ⟨_, execCall_of_lt nnn s hsp, zextAddr_toNat nnn, rfl, pushed_slot s hsp, frame_stack s _ _ _⟩

/-- Settles O20: the states that `execCall_of_full` and `execRet_of_empty` give. -/
theorem stackFaultsHaltAndChangeNothingElse : Obligations.StackFaultsHaltAndChangeNothingElse :=
  fun nnn s => ⟨execCall_of_full nnn s, execRet_of_empty s⟩

/-- Settles O21: the state that `execRet_of_succ` gives. -/
theorem returnPopsAndAddsTwo : Obligations.ReturnPopsAndAddsTwo := by
  intro s j hj
  exact ⟨_, execRet_of_succ s j hj, rfl, rfl, rfl, frame_stack s s.stack _ _⟩

/-- Settles O22: the slot that the return pops is the one that the call pushed. -/
theorem callThenReturnRoundTrip : Obligations.CallThenReturnRoundTrip := by
  intro nnn s t u hsp hcall husp hslots
  obtain rfl := Host.Outcome.next.inj ((execCall_of_lt nnn s hsp).symm.trans hcall)
  have hslot : u.stack[(⟨s.sp.val, hsp⟩ : Fin 16)] = s.pc := by
    rw [hslots ⟨s.sp.val, hsp⟩ (Nat.lt_succ_self _), pushed_slot s hsp, if_pos rfl]
  refine ⟨_, execRet_of_succ u ⟨s.sp.val, hsp⟩ (by rw [husp]), ?_, rfl⟩
  exact congrArg (· + 2#16) hslot

/-! ### The flag instructions (R187 to R193) -/

/-- VF after a result and a flag, as a number. -/
theorem flag_next_writeResultFlag (s : State) (x : RegIdx) (v : Byte) (b : Bool) :
    (readReg (next (writeResultFlag s x v b)) 15).toNat = b.toNat := by
  have h : readReg (next (writeResultFlag s x v b)) 15 = if b then 0x01#8 else 0x00#8 :=
    (readReg_writeResultFlag s x 15 v b).trans (if_pos rfl)
  rw [h]
  cases b <;> rfl

/-- Vx after a result and a flag, where it is not VF. -/
theorem result_next_writeResultFlag (s : State) {x : RegIdx} (hx : x ≠ 15) (v : Byte) (b : Bool) :
    readReg (next (writeResultFlag s x v b)) x = v :=
  (readReg_writeResultFlag s x x v b).trans (by rw [if_neg hx, if_pos rfl])

theorem addWide_toNat (a b : Byte) : (addWide a b).toNat = a.toNat + b.toNat := by
  have := a.isLt
  have := b.isLt
  simp [addWide]
  omega

theorem addResult_toNat (a b : Byte) : (addResult a b).toNat = (a.toNat + b.toNat) % 256 := by
  simp [addResult, addWide_toNat]

theorem byte_sub_toNat (a b : Byte) : (a - b).toNat = (256 + a.toNat - b.toNat) % 256 := by
  have := b.isLt
  rw [BitVec.toNat_sub]
  omega

/-- Settles O26: the 9-bit sum is the sum of numbers, its bit 8 the carry and its low byte the result. -/
theorem addRegisterSetsCarry : Obligations.AddRegisterSetsCarry := by
  intro x y s
  refine ⟨_, rfl, ?_, fun hx => ?_, rfl, next_writeResultFlag_frame s x _ _⟩
  · rw [flag_next_writeResultFlag, addCarry, addWide_toNat]
    exact Bool.cond_decide ..
  · rw [result_next_writeResultFlag s hx, addResult_toNat]

/-- Settles O27: the borrow is the comparison of the operands as they were before the write. -/
theorem subtractSetsBorrow : Obligations.SubtractSetsBorrow := by
  intro x y s
  refine ⟨_, rfl, ?_, fun hx => ?_, rfl, next_writeResultFlag_frame s x _ _⟩
  · rw [flag_next_writeResultFlag, subBorrow]
    exact Bool.cond_decide ..
  · rw [result_next_writeResultFlag s hx, subResult, byte_sub_toNat]

/-- Settles O28: the configuration's sense of the flag (`hflag`) is Vx < Vy. -/
theorem reverseSubtractSetsFlagWhenVxBelowVy : Obligations.ReverseSubtractSetsFlagWhenVxBelowVy := by
  intro x y s
  refine ⟨_, rfl, ?_, fun hx => ?_, rfl, next_writeResultFlag_frame s x _ _⟩
  · have hflag : ∀ a b, subnFlag a b = decide (a.toNat < b.toNat) := fun _ _ => rfl
    rw [flag_next_writeResultFlag, hflag]
    exact Bool.cond_decide ..
  · rw [result_next_writeResultFlag s hx, subnResult, byte_sub_toNat]

/-- A bit of a byte as a number. -/
theorem getLsbD_toNat (v : Byte) (k : Nat) : (v.getLsbD k).toNat = v.toNat / 2 ^ k % 2 :=
  Nat.toNat_testBit v.toNat k

/-- Settles O29: the shifts as division and multiplication by 2, the flags as bits 0 and 7. -/
theorem shiftsMoveVxInPlace : Obligations.ShiftsMoveVxInPlace := by
  intro x y s
  refine ⟨⟨_, rfl, ?shrFlag, fun hx => ?shr, rfl, next_writeResultFlag_frame s x _ _⟩,
    ⟨_, rfl, ?shlFlag, fun hx => ?shl, rfl, next_writeResultFlag_frame s x _ _⟩⟩
  case shrFlag =>
    rw [flag_next_writeResultFlag, shrFlag, getLsbD_toNat, pow_zero, Nat.div_one]
  case shlFlag =>
    have := (readReg s x).isLt
    rw [flag_next_writeResultFlag, shlFlag, getLsbD_toNat]
    omega
  case shr =>
    rw [result_next_writeResultFlag s hx, shrResult]
    simp [Nat.shiftRight_eq_div_pow]
  case shl =>
    rw [result_next_writeResultFlag s hx, shlResult]
    simp [Nat.shiftLeft_eq]

/-- Settles O30: the register that RND writes, bit by bit. -/
theorem randomByteUnderTheMask : Obligations.RandomByteUnderTheMask := by
  intro x kk s
  have hbit : ∀ k, (readReg (next (consumeDraw (writeReg s x (maskRandom (randomByte s) kk)))) x).getLsbD k =
      ((config.randomSource s.draws).getLsbD k && kk.getLsbD k) := fun k =>
    (congrArg (BitVec.getLsbD · k) (readReg_next_writeReg_self s x _)).trans BitVec.getLsbD_and
  exact ⟨_, rfl, hbit, fun k hk => by rw [hbit, hk, Bool.and_false], rfl, rfl,
    next_consumeDraw_writeReg_frame s x _⟩

/-! ### The key skips (R210 to R212) -/

theorem keyIndex_eq (v : Byte) : keyIndex v = v.toNat % 16 := by
  simp [keyIndex]

/-- Settles O38: each handler is `skipIf` on the level of the key that `keyIndex` selects. -/
theorem keySkipsTestTheLowFourBits : Obligations.KeySkipsTestTheLowFourBits := by
  intro x s
  rw [← keyIndex_eq]
  exact ⟨⟨_, rfl, skipIf_frame _ s, skipIf_pc_of_iff Iff.rfl s⟩,
    ⟨_, rfl, skipIf_frame _ s, skipIf_pc_of_iff_not (by simp) s⟩⟩

/-! ### I and memory (R222 to R227) -/

/-- Settles O42: the sum of words that the handler writes to I is the sum of numbers modulo 2^16. -/
theorem addIndexWrapsAt65536 : Obligations.AddIndexWrapsAt65536 := by
  intro x s
  refine ⟨_, rfl, ?_, rfl, next_setI_frame s _⟩
  exact (BitVec.toNat_add ..).trans (by rw [zextByte_toNat])

/-- R223: the font address does not wrap, by R6's constraint on FONT_BASE. -/
theorem glyphAddr_toNat (v : Byte) : (glyphAddr v).toNat = config.fontBase + v.toNat * 5 := by
  have hfits : config.fontBase + Config.fontSize ≤ Config.programOrigin := config.fontBase_fits
  have horigin : Config.programOrigin = 512 := rfl
  have := v.isLt
  rw [glyphAddr, BitVec.toNat_add, BitVec.toNat_mul, BitVec.toNat_ofNat, BitVec.toNat_ofNat, zextByte_toNat]
  simp [Config.glyphHeight]
  omega

/-- Settles O43, by `glyphAddr_toNat`. -/
theorem fontIndexIsUnmasked : Obligations.FontIndexIsUnmasked := by
  intro x s
  exact ⟨_, rfl, glyphAddr_toNat _, rfl, next_setI_frame s _⟩

/-- R227: I past the last byte moved. -/
theorem indexAdvanced_toNat (s : State) (x : RegIdx) : (indexAdvanced s x).toNat = (s.i.toNat + x.val + 1) % 65536 := by
  have := x.isLt
  rw [indexAdvanced, BitVec.toNat_add, BitVec.toNat_ofNat]
  omega

/-- R225: the registers V0 to Vx, one by one. -/
theorem regRange_getElem (s : State) (x j : RegIdx) (hj : j.val < (regRange s x).length) :
    (regRange s x)[j.val] = readReg s j := by
  simp [regRange, readReg]

/-- R224: what LD_B stores, digit by digit. -/
theorem memRead_storeBytes_bcdDigits (s : State) (v : Byte) (j : Fin 3) :
    (memRead (storeBytes s.mem (indexAddr s 0) (bcdDigits v)) (s.i.toNat + j.val)) = (bcdDigits v)[j.val] :=
  memRead_storeBytes (bcdDigits v) s.mem (indexAddr s 0) j.val (show 3 ≤ 4096 by decide) j.isLt

/-- Settles O44: each digit is below 10 or, the hundreds, below 3, so that it fits a byte. -/
theorem bcdStoresThreeDigits : Obligations.BcdStoresThreeDigits := by
  intro x s
  have hlt := (readReg s x).isLt
  have hdigit := memRead_storeBytes_bcdDigits s (readReg s x)
  refine ⟨_, rfl, (congrArg BitVec.toNat (hdigit 0)).trans ?_, (congrArg BitVec.toNat (hdigit 1)).trans ?_,
    (congrArg BitVec.toNat (hdigit 2)).trans ?_, rfl, next_storeBytes_frame s rfl⟩
  all_goals
    simp [bcdDigits]
    omega

/-- R225: a byte after LD_MEM_VX. -/
theorem memRead_storeBytes_regRange (s : State) {x j : RegIdx} (hj : j ≤ x) :
    memRead (storeBytes s.mem (indexAddr s 0) (regRange s x)) (s.i.toNat + j.val) = readReg s j := by
  have hx := x.isLt
  have hlen : j.val < (regRange s x).length := by
    rw [regRange_length]
    exact Nat.lt_succ_of_le hj
  have hstored := memRead_storeBytes (regRange s x) s.mem (indexAddr s 0) j.val (by rw [regRange_length]; omega) hlen
  exact hstored.trans (regRange_getElem s x j hlen)

/-- Settles O45: the bytes by `memRead_storeBytes_regRange`, I by `indexAdvanced_toNat`. -/
theorem dumpStoresRegistersUpToVx : Obligations.DumpStoresRegistersUpToVx := by
  intro x s
  exact ⟨_, rfl, fun j hj => memRead_storeBytes_regRange s hj, indexAdvanced_toNat s x, rfl,
    next_storeBytes_setI_frame s (regRange_length s x) _⟩

/-- Settles O46: the registers by `loadRegs_getElem_regIdx`, I by `indexAdvanced_toNat`. -/
theorem loadReadsRegistersUpToVx : Obligations.LoadReadsRegistersUpToVx := by
  intro x s
  exact ⟨_, rfl, fun j hj => (loadRegs_getElem_regIdx s x j).trans (if_pos hj), indexAdvanced_toNat s x, rfl,
    next_loadRegs_setI_frame s x _⟩

/-- A Running cycle that executes LD_MEM_VX. -/
theorem step_ldMemVx {s : State} {x : RegIdx} (hc : cycleState s = .running)
    (hd : decodeWord (fetchWord s) = some (.ldMemVx x)) :
    step s = .next { s with
      mem := storeBytes s.mem (indexAddr s 0) (regRange s x), i := indexAdvanced s x, pc := s.pc + 2#16,
      dt := tickDown s.dt, st := tickDown s.st, dirty := false } := by
  have hhalt : s.halt = none := (cycleState_running.mp hc).1
  exact (step_instr hc hd rfl).trans (congrArg _ (endCycle_of_not_halted hhalt))

/-- Settles O49: the next cycle fetches at pc + 2, which is where the dump put V0 and V1. -/
theorem storedWordIsFetchedNext : Obligations.StoredWordIsFetchedNext := by
  intro s x hc hd hx hi
  have h0 := memRead_storeBytes_regRange s (Fin.zero_le x)
  have h1 := memRead_storeBytes_regRange s (x := x) (j := 1) hx
  rw [hi] at h0 h1
  exact ⟨_, step_ldMemVx hc hd, hc, congrArg₂ wordOfBytes h0 h1⟩

end Sys2Proof.Machine
end

section
/-! The table of R21 (which registers an instruction reads and writes), the flag rule of R22, and the timer instructions
(R213 to R215). -/

namespace Sys2Proof.Machine

open Sys2Proof.Safety

/-! ### The registers written (R21, R22) -/

/-- Settles O31: the registers of the footprint are those of R21's write rows, and a fatal condition writes none. -/
theorem onlyTheNamedRegistersAreWritten : Obligations.OnlyTheNamedRegistersAreWritten := by
  intro i s t r h hwrites
  obtain ⟨c, -, rfl⟩ | ⟨-, hframe⟩ := exec_cases h
  · rfl
  · exact hframe.readReg_eq (mt (mem_footprint_regs i s r).mp (Bool.eq_false_iff.mp hwrites))

/-- R22: what `writeFlag` leaves in VF. -/
theorem readReg_writeFlag (s : State) (b : Bool) : readReg (writeFlag s b) 15 = if b then 0x01#8 else 0x00#8 :=
  readReg_writeReg_self s 15 _

theorem writeFlag_zero_or_one (s : State) (b : Bool) :
    readReg (writeFlag s b) 15 = 0x00 ∨ readReg (writeFlag s b) 15 = 0x01 := by
  cases b with
  | false => exact .inl (readReg_writeFlag s false)
  | true => exact .inr (readReg_writeFlag s true)

/-- Settles O32: the last register write of each of the six handlers is that of the flag. -/
theorem flagInstructionsLeaveZeroOrOne : Obligations.FlagInstructionsLeaveZeroOrOne := by
  intro i s hflag
  cases i with
  | addReg | sub | subn | shr | shl | drw => exact ⟨_, rfl, writeFlag_zero_or_one _ _⟩
  | _ => exact hflag.elim

/-! ### The registers read (R21) -/

section Inert
variable {s : State} {r x : RegIdx} {v : Byte}

/-- Writes to two registers commute. -/
theorem writeReg_writeReg_comm (hx : r ≠ x) (w : Byte) :
    writeReg (writeReg s r v) x w = writeReg (writeReg s x w) r v := by
  simp only [writeReg, State.setRegs, State.mk.injEq, and_true]
  exact Vector.set_comm v w (fun h => hx (Fin.ext h))

theorem writeResultFlag_writeReg_comm (hx : r ≠ x) (h15 : r ≠ 15) (w : Byte) (b : Bool) :
    writeResultFlag (writeReg s r v) x w b = writeReg (writeResultFlag s x w b) r v := by
  rw [writeResultFlag, writeReg_writeReg_comm hx]
  exact writeReg_writeReg_comm h15 _

theorem next_writeReg_writeReg (hx : r ≠ x) (w : Byte) :
    next (writeReg (writeReg s r v) x w) = writeReg (next (writeReg s x w)) r v :=
  congrArg next (writeReg_writeReg_comm hx w)

theorem next_writeResultFlag_writeReg (hx : r ≠ x) (h15 : r ≠ 15) (w : Byte) (b : Bool) :
    next (writeResultFlag (writeReg s r v) x w b) = writeReg (next (writeResultFlag s x w b)) r v :=
  congrArg next (writeResultFlag_writeReg_comm hx h15 w b)

theorem next_writeFlag_writeReg (h15 : r ≠ 15) (d : Display) (b : Bool) :
    next ((writeFlag ((writeReg s r v).setFb d) b).setDirty true) =
      writeReg (next ((writeFlag (s.setFb d) b).setDirty true)) r v :=
  congrArg (fun u => next (State.setDirty u true)) (writeReg_writeReg_comm (s := s.setFb d) h15 _)

theorem skipIf_writeReg (c : Bool) : skipIf c (writeReg s r v) = writeReg (skipIf c s) r v := by
  cases c <;> rfl

/-- A register above Vx is not among those that LD_MEM_VX stores. -/
theorem regRange_writeReg (hx : x < r) : regRange (writeReg s r v) x = regRange s x := by
  have hset : (writeReg s r v).regs.toList = s.regs.toList.set r.val v := Vector.toList_set r.isLt
  rw [regRange, hset, List.take_set_of_le (Nat.succ_le_of_lt hx), regRange]

/-- A register above Vx is left alone by the load of LD_VX_MEM. -/
theorem loadRegs_set (m : Memory) (a : Nat) (regs : Vector Byte 16) (hx : x < r) :
    loadRegs m a (regs.set r v) (x.val + 1) = (loadRegs m a regs (x.val + 1)).set r v := by
  apply Vector.ext
  intro j hj
  have hx : x.val < r.val := hx
  simp only [loadRegs_getElem, Vector.getElem_set]
  split_ifs with hlt heq heq
  · omega
  all_goals rfl

end Inert

/-- Settles O33, by the rows of R21: the registers that the handler reads are the same (`readReg_writeReg_of_ne`), and its
own writes are to other registers, so that they commute with the write of `r`. -/
theorem untouchedRegistersAreInert : Obligations.UntouchedRegistersAreInert := by
  intro i s t r v h hreads hwrites
  have hread : ∀ {q : RegIdx}, r ≠ q → readReg (writeReg s r v) q = readReg s q := fun hq =>
    readReg_writeReg_of_ne s v hq.symm
  cases i with
  | call nnn =>
    obtain ⟨hfull, rfl⟩ | ⟨hsp, rfl⟩ := execCall_cases h
    · exact execCall_of_full nnn (writeReg s r v) hfull
    · exact execCall_of_lt nnn (writeReg s r v) hsp
  | ret =>
    obtain ⟨hempty, rfl⟩ | ⟨j, hj, rfl⟩ := execRet_cases h
    · exact execRet_of_empty (writeReg s r v) hempty
    · exact execRet_of_succ (writeReg s r v) j hj
  | cls | jp | ldI | ldVxK =>
    obtain rfl := Host.Outcome.next.inj h
    rfl
  | jpV0 =>
    have h0 : r ≠ 0 := by simpa [readsReg] using hreads
    obtain rfl := Host.Outcome.next.inj h
    rw [← hread h0]
    rfl
  | ldDtVx x | ldStVx x | addI x | ldF x | ldB x =>
    have hx : r ≠ x := by simpa [readsReg] using hreads
    obtain rfl := Host.Outcome.next.inj h
    rw [← hread hx]
    rfl
  | seImm x | sneImm x | skp x | sknp x =>
    have hx : r ≠ x := by simpa [readsReg] using hreads
    obtain rfl := Host.Outcome.next.inj h
    rw [← hread hx]
    exact congrArg _ (skipIf_writeReg _)
  | seReg x y | sneReg x y =>
    have hxy : r ≠ x ∧ r ≠ y := by simpa [readsReg] using hreads
    obtain ⟨hx, hy⟩ := hxy
    obtain rfl := Host.Outcome.next.inj h
    rw [← hread hx, ← hread hy]
    exact congrArg _ (skipIf_writeReg _)
  | ldImm x | ldVxDt x =>
    have hx : r ≠ x := by simpa [writesReg] using hwrites
    obtain rfl := Host.Outcome.next.inj h
    exact congrArg _ (next_writeReg_writeReg hx _)
  | rnd x kk =>
    have hx : r ≠ x := by simpa [writesReg] using hwrites
    obtain rfl := Host.Outcome.next.inj h
    exact congrArg (fun u => Host.Outcome.next (next (consumeDraw u))) (writeReg_writeReg_comm hx _)
  | addImm x =>
    have hx : r ≠ x := by simpa [writesReg] using hwrites
    obtain rfl := Host.Outcome.next.inj h
    rw [← hread hx]
    exact congrArg _ (next_writeReg_writeReg hx _)
  | ldReg x y =>
    have hx : r ≠ x := by simpa [writesReg] using hwrites
    have hy : r ≠ y := by simpa [readsReg] using hreads
    obtain rfl := Host.Outcome.next.inj h
    rw [← hread hy]
    exact congrArg _ (next_writeReg_writeReg hx _)
  | orReg x y | andReg x y | xorReg x y =>
    have hxy : r ≠ x ∧ r ≠ y := by simpa [readsReg] using hreads
    obtain ⟨hx, hy⟩ := hxy
    obtain rfl := Host.Outcome.next.inj h
    rw [← hread hx, ← hread hy]
    exact congrArg _ (next_writeReg_writeReg hx _)
  | addReg x y | sub x y | subn x y =>
    have hxy : r ≠ x ∧ r ≠ y := by simpa [readsReg] using hreads
    have hxf : r ≠ x ∧ r ≠ 15 := by simpa [writesReg] using hwrites
    obtain ⟨hx, hy⟩ := hxy
    obtain ⟨-, h15⟩ := hxf
    obtain rfl := Host.Outcome.next.inj h
    rw [← hread hx, ← hread hy]
    exact congrArg _ (next_writeResultFlag_writeReg hx h15 _ _)
  | shr x y | shl x y =>
    have hxf : r ≠ x ∧ r ≠ 15 := by simpa [writesReg] using hwrites
    obtain ⟨hx, h15⟩ := hxf
    obtain rfl := Host.Outcome.next.inj h
    rw [← hread hx]
    exact congrArg _ (next_writeResultFlag_writeReg hx h15 _ _)
  | drw x y n =>
    have hxy : r ≠ x ∧ r ≠ y := by simpa [readsReg] using hreads
    have h15 : r ≠ 15 := by simpa [writesReg] using hwrites
    obtain ⟨hx, hy⟩ := hxy
    obtain rfl := Host.Outcome.next.inj h
    rw [← hread hx, ← hread hy]
    exact congrArg _ (next_writeFlag_writeReg h15 _ _)
  | ldMemVx x =>
    have hx : x < r := by simpa [readsReg] using hreads
    obtain rfl := Host.Outcome.next.inj h
    rw [← regRange_writeReg (v := v) hx]
    rfl
  | ldVxMem x =>
    have hx : x < r := by simpa [writesReg] using hwrites
    obtain rfl := Host.Outcome.next.inj h
    exact congrArg (fun regs => Host.Outcome.next (next ((s.setRegs regs).setI (indexAdvanced s x))))
      (loadRegs_set s.mem (indexAddr s 0) s.regs hx)

/-! ### The timer instructions (R213 to R215) -/

/-- A Running cycle that executes an instruction without a fatal condition completes. -/
theorem step_completes {s t : State} {i : Instr} (hc : cycleState s = .running)
    (hd : decodeWord (fetchWord s) = some i) (hf : handlerFatal i s = none) (h : step s = .next t) : t.halt = none := by
  rw [step_running_halt hc h, cycleFatal_of_some hd, hf, Option.map_none]

theorem skipIf_setSt (c : Bool) (s : State) (v : Byte) :
    skipIf c { s with st := v } = { skipIf c s with st := v } := by
  cases c <;> rfl

/-- R215: no handler but that of LD_ST_VX depends on ST or writes it. -/
theorem exec_setSt {i : Instr} {s t : State} (v : Byte) (hi : ∀ y, i ≠ .ldStVx y) (h : exec i s = .next t) :
    exec i { s with st := v } = .next { t with st := v } := by
  cases i with
  | call nnn =>
    obtain ⟨hfull, rfl⟩ | ⟨hsp, rfl⟩ := execCall_cases h
    · exact execCall_of_full nnn { s with st := v } hfull
    · exact execCall_of_lt nnn { s with st := v } hsp
  | ret =>
    obtain ⟨hempty, rfl⟩ | ⟨j, hj, rfl⟩ := execRet_cases h
    · exact execRet_of_empty { s with st := v } hempty
    · exact execRet_of_succ { s with st := v } j hj
  | seImm | sneImm | seReg | sneReg | skp | sknp =>
    obtain rfl := Host.Outcome.next.inj h
    exact congrArg _ (skipIf_setSt _ s v)
  | ldStVx y => exact absurd rfl (hi y)
  | _ =>
    obtain rfl := Host.Outcome.next.inj h
    rfl

/-- Settles O39: the handlers and their frames, the cycles by O16, the last line by `exec_setSt`. -/
theorem timerInstructionsMoveVxAndTheTimers : Obligations.TimerInstructionsMoveVxAndTheTimers := by
  intro x s
  obtain ⟨t, h⟩ := step_total s
  obtain ⟨-, htick⟩ := timersTickOncePerExecutedInstruction s t h
  refine ⟨⟨_, rfl, readReg_next_writeReg_self s x _, rfl, next_writeReg_frame s x _⟩,
    ⟨_, rfl, rfl, rfl, next_setDt_frame s _⟩, ⟨_, rfl, rfl, rfl, next_setSt_frame s _⟩,
    fun hc hd => ⟨t, h, ?getDt⟩, fun hc hd => ⟨t, h, ?setDt⟩, fun hc hd => ⟨t, h, ?setSt⟩,
    fun _ => rfl, fun i v t hi he => exec_setSt v hi he⟩
  case getDt =>
    obtain ⟨-, hdt, -, -, hread⟩ := htick _ hc (step_completes hc hd rfl h) hd
    exact ⟨hread x rfl, hdt fun _ he => nomatch he⟩
  case setDt =>
    obtain ⟨hdt, -⟩ := htick _ hc (step_completes hc hd rfl h) hd
    exact hdt x rfl
  case setSt =>
    obtain ⟨-, -, hst, -⟩ := htick _ hc (step_completes hc hd rfl h) hd
    exact hst x rfl

end Sys2Proof.Machine
end

section
/-! The family of `spec/43_display.md`: DRW (R201 to R204). The blit goes through the sprite's pixels one by one; what it
has done after `k` of them is `Blitted` by the mask of those `k` pixels. -/

namespace Sys2Proof.Machine

open Sys2Proof.Safety

/-! ### The pixels of a sprite (R202) -/

/-- The sprite row that lands in row `row` of the display, for a sprite at `cy`: below 32. -/
def spriteRowOf (cy : Byte) (row : Fin 32) : Nat := (row.val + 256 - cy.toNat) % 32

/-- The sprite column that lands in column `col` of the display, for a sprite at `cx`: below 64. -/
def spriteColOf (cx : Byte) (col : Fin 64) : Nat := (col.val + 256 - cx.toNat) % 64

theorem eq_spriteRow_iff {cy : Byte} {row : Fin 32} {r : Nat} (hr : r < 32) :
    row = spriteRow cy r ↔ spriteRowOf cy row = r := by
  have := cy.isLt
  have := row.isLt
  simp only [Fin.ext_iff, spriteRow, spriteRowOf, Fin.val_ofNat]
  omega

theorem eq_spriteCol_iff {cx : Byte} {col : Fin 64} {j : Nat} (hj : j < 64) :
    col = spriteCol cx j ↔ spriteColOf cx col = j := by
  have := cx.isLt
  have := col.isLt
  simp only [Fin.ext_iff, spriteCol, spriteColOf, Fin.val_ofNat]
  omega

/-- The bit that the first `k` pixels of a sprite, row by row, put on a pixel of the display: `bytes r` is the byte of
sprite row `r`. -/
def spriteMask (cx cy : Byte) (bytes : Nat → Byte) (k : Nat) (row : Fin 32) (col : Fin 64) : Bool :=
  decide (spriteColOf cx col < 8 ∧ 8 * spriteRowOf cy row + spriteColOf cx col < k) &&
    spriteBit (bytes (spriteRowOf cy row)) (spriteColOf cx col)

/-- One pixel more: the mask changes at that pixel's place only. -/
theorem spriteMask_succ (cx cy : Byte) (bytes : Nat → Byte) {r j : Nat} (hr : r < 32) (hj : j < 8) (row : Fin 32)
    (col : Fin 64) : spriteMask cx cy bytes (8 * r + j + 1) row col =
      if row = spriteRow cy r ∧ col = spriteCol cx j then spriteBit (bytes r) j
      else spriteMask cx cy bytes (8 * r + j) row col := by
  simp only [eq_spriteRow_iff hr, eq_spriteCol_iff (show j < 64 by omega)]
  unfold spriteMask
  split
  · next h =>
    obtain ⟨rfl, rfl⟩ := h
    simp [hj]
  · next h =>
    congr 2
    apply propext
    omega

/-- The pixel that comes next is not yet in the mask. -/
theorem spriteMask_next (cx cy : Byte) (bytes : Nat → Byte) {r j : Nat} (hr : r < 32) (hj : j < 8) :
    spriteMask cx cy bytes (8 * r + j) (spriteRow cy r) (spriteCol cx j) = false := by
  have hrow : spriteRowOf cy (spriteRow cy r) = r := (eq_spriteRow_iff hr).mp rfl
  have hcol : spriteColOf cx (spriteCol cx j) = j := (eq_spriteCol_iff (show j < 64 by omega)).mp rfl
  simp [spriteMask, hrow, hcol]

/-! ### The blit (R201) -/

/-- The display `d` with the mask XORed in, and whether a pixel went from 1 to 0. -/
def Blitted (mask : Fin 32 → Fin 64 → Bool) (d : Display) (acc : Display × Bool) : Prop :=
  (∀ row col, pixelAt acc.1 row col = (pixelAt d row col ^^ mask row col)) ∧
  (acc.2 = true ↔ ∃ row col, pixelAt d row col = true ∧ mask row col = true)

/-- One pixel of the blit adds that pixel to the mask. -/
theorem blitted_blitPixel {cx cy : Byte} {bytes : Nat → Byte} {d : Display} {acc : Display × Bool} {r j : Nat}
    (hr : r < 32) (hj : j < 8) (h : Blitted (spriteMask cx cy bytes (8 * r + j)) d acc) :
    Blitted (spriteMask cx cy bytes (8 * r + (j + 1))) d (blitPixel cx cy (bytes r) r acc j) := by
  obtain ⟨hpix, hhit⟩ := h
  have hnext := spriteMask_next cx cy bytes hr hj
  have hold : pixelAt acc.1 (spriteRow cy r) (spriteCol cx j) = pixelAt d (spriteRow cy r) (spriteCol cx j) := by
    rw [hpix, hnext, Bool.xor_false]
  have hmask := spriteMask_succ cx cy bytes hr hj
  refine ⟨fun row col => ?_, ?_⟩
  · rw [← Nat.add_assoc, hmask, blitPixel, pixelAt_setPixel]
    split
    · next hp =>
      obtain ⟨rfl, rfl⟩ := hp
      rw [hold]
    · exact hpix row col
  · rw [← Nat.add_assoc, blitPixel, Bool.or_eq_true, Bool.and_eq_true, hhit, hold]
    constructor
    · rintro (⟨row, col, hd, hm⟩ | ⟨hd, hbit⟩)
      · have hne : ¬ (row = spriteRow cy r ∧ col = spriteCol cx j) := by
          rintro ⟨rfl, rfl⟩
          simp [hnext] at hm
        exact ⟨row, col, hd, by rw [hmask, if_neg hne, hm]⟩
      · exact ⟨_, _, hd, by rw [hmask, if_pos ⟨rfl, rfl⟩, hbit]⟩
    · rintro ⟨row, col, hd, hm⟩
      rw [hmask] at hm
      split at hm
      · next hp =>
        obtain ⟨rfl, rfl⟩ := hp
        exact .inr ⟨hd, hm⟩
      · exact .inl ⟨row, col, hd, hm⟩

theorem blitted_blitRow {cx cy : Byte} {bytes : Nat → Byte} {d : Display} {acc : Display × Bool} {r : Nat}
    (hr : r < 32) (h : Blitted (spriteMask cx cy bytes (8 * r)) d acc) :
    Blitted (spriteMask cx cy bytes (8 * (r + 1))) d (blitRow cx cy (bytes r) r acc) := by
  have hfold : ∀ j ≤ 8, Blitted (spriteMask cx cy bytes (8 * r + j)) d
      ((List.range j).foldl (blitPixel cx cy (bytes r) r) acc) := by
    intro j
    induction j with
    | zero => exact fun _ => h
    | succ j ih =>
      intro hj
      rw [List.range_succ, List.foldl_append]
      exact blitted_blitPixel hr hj (ih (by omega))
  exact hfold 8 le_rfl

/-- R201: after the blit of `n` sprite rows. -/
theorem blitted_blitRows (m : Memory) (cx cy : Byte) (base : Nat) (d : Display) {n : Nat} (hn : n ≤ 32) :
    Blitted (spriteMask cx cy (fun r => memRead m (base + r)) (8 * n)) d (blitRows m cx cy base n d) := by
  induction n with
  | zero => refine ⟨fun row col => ?_, ?_⟩ <;> simp [blitRows, spriteMask]
  | succ n ih =>
    have hrow := blitted_blitRow (show n < 32 by omega) (ih (by omega))
    rw [blitRows, List.range_succ, List.foldl_append]
    exact hrow

/-! ### DRW -/

/-- The mask that `drw x y n` XORs into the display. -/
def drawMask (x y : RegIdx) (n : Nibble) (s : State) : Fin 32 → Fin 64 → Bool :=
  spriteMask (readReg s x) (readReg s y) (fun r => memRead s.mem (indexAddr s 0 + r)) (8 * n.toNat)

/-- R201 to R204: what DRW leaves, with its display and collision bit known. -/
theorem exec_drw (x y : RegIdx) (n : Nibble) (s : State) : ∃ res : Display × Bool,
    Blitted (drawMask x y n s) s.fb res ∧
    exec (.drw x y n) s = .next (next ((writeFlag (s.setFb res.1) res.2).setDirty true)) :=
  ⟨_, blitted_blitRows s.mem _ _ _ s.fb (by have := n.isLt; omega), rfl⟩

/-- Settles O36: the second draw XORs in the same mask. -/
theorem drawingTwiceRestoresTheDisplay : Obligations.DrawingTwiceRestoresTheDisplay := by
  intro x y n s t h hx hy
  obtain ⟨res, ⟨hpix, -⟩, he⟩ := exec_drw x y n s
  obtain rfl := Host.Outcome.next.inj (he.symm.trans h)
  obtain ⟨res', ⟨hpix', -⟩, he'⟩ := exec_drw x y n (next ((writeFlag (s.setFb res.1) res.2).setDirty true))
  have hmask : drawMask x y n (next ((writeFlag (s.setFb res.1) res.2).setDirty true)) = drawMask x y n s := by
    rw [drawMask, hx, hy]
    rfl
  refine ⟨_, he', display_ext fun row col => (hpix' row col).trans ?_⟩
  rw [hmask]
  have hfirst : pixelAt (next ((writeFlag (s.setFb res.1) res.2).setDirty true)).fb row col = _ := hpix row col
  rw [hfirst, Bool.xor_assoc, Bool.xor_self, Bool.xor_false]

/-- R202: the mask of DRW on a pixel inside the sprite is the sprite's bit. -/
theorem drawMask_inside (x y : RegIdx) {n : Nibble} (s : State) {row : Fin 32} {col : Fin 64} {r j : Nat}
    (hr : r < n.toNat) (hj : j < 8) (hrow : row.val = ((readReg s y).toNat + r) % 32)
    (hcol : col.val = ((readReg s x).toNat + j) % 64) :
    drawMask x y n s row col = (readByte s (s.i.toNat + r)).getLsbD (7 - j) := by
  have hn := n.isLt
  have hr' : spriteRowOf (readReg s y) row = r := (eq_spriteRow_iff (by omega)).mp (Fin.ext hrow)
  have hj' : spriteColOf (readReg s x) col = j := (eq_spriteCol_iff (by omega)).mp (Fin.ext hcol)
  have hlt : 8 * r + j < 8 * n.toNat := by omega
  simp only [drawMask, spriteMask, hr', hj', hj, hlt, and_self, decide_true, Bool.true_and]
  rfl

/-- R202: the mask of DRW is 0 on a pixel outside the sprite. -/
theorem drawMask_outside (x y : RegIdx) {n : Nibble} (s : State) {row : Fin 32} {col : Fin 64}
    (h : ∀ r j, r < n.toNat → j < 8 →
      ¬ (row.val = ((readReg s y).toNat + r) % 32 ∧ col.val = ((readReg s x).toNat + j) % 64)) :
    drawMask x y n s row col = false := by
  have hr : spriteRowOf (readReg s y) row < 32 := Nat.mod_lt _ (by decide)
  have hj : spriteColOf (readReg s x) col < 64 := Nat.mod_lt _ (by decide)
  by_contra hset
  simp only [drawMask, spriteMask, Bool.not_eq_false, Bool.and_eq_true, decide_eq_true_eq] at hset
  obtain ⟨⟨hcol, hlt⟩, -⟩ := hset
  exact h _ _ (by omega) hcol
    ⟨congrArg Fin.val ((eq_spriteRow_iff hr).mpr rfl), congrArg Fin.val ((eq_spriteCol_iff hj).mpr rfl)⟩

/-- R22: VF is 1 exactly when the flag is set. -/
theorem readReg_writeFlag_eq_one (s : State) (b : Bool) : readReg (writeFlag s b) 15 = 0x01 ↔ b = true := by
  rw [readReg_writeFlag]
  cases b <;> decide

/-- Settles O35: the pixels by the mask of the blit, VF by its collision bit. -/
theorem drawXorsThePixelsOfTheSprite : Obligations.DrawXorsThePixelsOfTheSprite := by
  intro x y n s
  obtain ⟨res, ⟨hpix, hhit⟩, he⟩ := exec_drw x y n s
  refine ⟨_, he, fun row col => ⟨fun r j hr hj hrow hcol => ?inside, fun hout => ?outside⟩, writeFlag_zero_or_one _ _, ?hit,
    rfl, rfl, next_writeFlag_setFb_frame s _ _⟩
  case inside => exact (hpix row col).trans (by rw [drawMask_inside x y s hr hj hrow hcol])
  case outside => exact (hpix row col).trans (by rw [drawMask_outside x y s hout, Bool.xor_false])
  case hit =>
    refine (readReg_writeFlag_eq_one (s.setFb res.1) res.2).trans (hhit.trans ?_)
    refine exists_congr fun row => exists_congr fun col => and_congr_right fun hset => ?_
    have hflip : drawMask x y n s row col = true ↔ pixelAt res.1 row col = false := by
      rw [hpix, hset, Bool.true_xor, Bool.not_eq_false']
    exact hflip

end Sys2Proof.Machine
end

section
/-! The family of the host's operations (R132 to R135): the reset, the loader and the key latch. -/

namespace Sys2Proof.Machine

open Sys2Proof.Safety

/-! ### The loader (R133, R77) -/

/-- A byte after a load from `o` upward: copied where a byte of the list falls below 4096, kept elsewhere. -/
theorem read_loadBytes (bytes : List Byte) (m : Memory) (o : Nat) {a : Nat} (ha : a < 4096) :
    Memory.read (loadBytes m o bytes) a =
      if o ≤ a ∧ a - o < bytes.length then bytes.getD (a - o) 0x00#8 else Memory.read m a := by
  induction bytes generalizing m o with
  | nil => simp [loadBytes]
  | cons b bs ih =>
    unfold loadBytes
    split
    · next ho =>
      rw [ih, Memory.read_write]
      rcases Nat.lt_trichotomy a o with hlt | rfl | hgt
      · simp [Nat.not_le_of_lt hlt, Nat.ne_of_lt hlt, show ¬ o + 1 ≤ a by omega]
      · simp
      · obtain ⟨k, rfl⟩ := Nat.exists_eq_add_of_lt hgt
        simp [show o + k + 1 - (o + 1) = k by omega, show o + k + 1 - o = k + 1 by omega,
          show o + k + 1 ≠ o by omega, show o ≤ o + k + 1 by omega]
    · next ho =>
      have hbeyond : ¬ o ≤ a := fun hle => ho (Nat.lt_of_le_of_lt hle ha)
      simp [hbeyond]

/-- Settles O54: `read_loadBytes` at PROGRAM_ORIGIN. -/
theorem loaderCopiesAndTruncates : Obligations.LoaderCopiesAndTruncates := by
  intro bytes s
  refine ⟨fun a ha => ?_, rfl⟩
  have hread : ∀ u : State, readByte u a = Memory.read u.mem a := fun u =>
    congrArg (Memory.read u.mem) (effAddr_of_lt ha)
  rw [hread, hread]
  exact read_loadBytes bytes s.mem Config.programOrigin ha

/-! ### The key latch (R134, R135) -/

theorem getLsbD_twoPow_fin (k j : Fin 16) : (BitVec.twoPow 16 k.val).getLsbD j.val = decide (j = k) := by
  rw [BitVec.getLsbD_twoPow, decide_eq_true k.isLt, Bool.true_and]
  exact decide_eq_decide.mpr (by rw [Fin.ext_iff, eq_comm])

/-- R134: the latch after `set_key`. -/
theorem keyDown_setKey (k j : Fin 16) (pressed : Bool) (s : State) :
    keyDown (setKey k pressed s) j = if j = k then pressed else keyDown s j := by
  cases pressed with
  | true =>
    have hor : keyDown (setKey k true s) j = (keyDown s j || decide (j = k)) := by
      rw [← getLsbD_twoPow_fin]
      exact BitVec.getLsbD_or
    rw [hor]
    by_cases hjk : j = k <;> simp [hjk]
  | false =>
    have hand : keyDown (setKey k false s) j = (keyDown s j && !decide (j = k)) := by
      have hnot : (~~~BitVec.twoPow 16 k.val).getLsbD j.val = !decide (j = k) := by
        rw [BitVec.getLsbD_not, getLsbD_twoPow_fin, decide_eq_true j.isLt, Bool.true_and]
      rw [← hnot]
      exact BitVec.getLsbD_and
    rw [hand]
    by_cases hjk : j = k <;> simp [hjk]

/-- Settles O55, by `keyDown_setKey`; `set_all_keys` is a write of the whole latch. -/
theorem hostKeyOperationsWriteTheLatch : Obligations.HostKeyOperationsWriteTheLatch :=
  fun k j pressed _ s => ⟨keyDown_setKey k j pressed s, rfl, rfl, rfl⟩

/-! ### The reset (R40, R132, R270) -/

/-- R29: the reset contents, by the extent of the font. -/
theorem resetByte_eq (a : Nat) : resetByte a =
    if config.fontBase ≤ a ∧ a < config.fontBase + 80 then config.fontTable.getD (a - config.fontBase) 0x00#8
    else 0x00#8 := by
  split
  · next h =>
    obtain ⟨hbase, -⟩ := h
    exact if_pos hbase
  · next h =>
    by_cases hbase : config.fontBase ≤ a
    · exact resetByte_past_font (Nat.le_of_not_lt fun hlt => h ⟨hbase, hlt⟩)
    · exact if_neg hbase

/-- Settles O6: each register, slot, pixel and key by the constant vector or word it is read from, each byte by
`resetByte_eq`. -/
theorem resetState : Obligations.ResetState := by
  refine ⟨fun r => ?regs, rfl, rfl, rfl, fun j => ?slots, fun a ha => ?bytes, config.fontTable_length,
    config.fontBase_fits, pixelAt_blankDisplay, rfl, rfl, fun k => BitVec.getLsbD_zero, rfl, rfl, rfl, rfl,
    fun _ => rfl, fun _ => rfl⟩
  case regs => exact Vector.getElem_replicate r.isLt
  case slots => exact Vector.getElem_replicate j.isLt
  case bytes => exact (congrArg resetByte (effAddr_of_lt ha)).trans (resetByte_eq a)

end Sys2Proof.Machine
end
